-- ==== Sys2Proof/Word.lean ====
section
/-! DEFINITION. The two widths the core computes with (`00_scope.md` R8, R9): every register and memory
value is an unsigned integer of a stated width, 8 or 16 bits. -/

namespace Sys2Proof

/-- An 8-bit value: a general register, a memory cell, a timer, an immediate `kk`. -/
abbrev Byte := BitVec 8

/-- A 16-bit value: `pc`, `I`, a stack slot, an instruction word `w`. -/
abbrev Word := BitVec 16

end Sys2Proof
end

