-- ==== Sys2Proof/Config.lean ====
section
/-! DEFINITION. What an implementation fixes (the parameters of `00_scope.md` R7) and the one free value
of the spec, the random byte of `Cxkk` (`40_cycle.md` R95). -/

namespace Sys2Proof

/-- STACK_POLICY (`60_exceptions.md` R213): what a call on a full stack and a return on an empty one do. -/
inductive StackPolicy where
  /-- the instruction raises StackOverflow or StackUnderflow -/
  | fault
  /-- the push or the pop is skipped and the rest of the instruction proceeds -/
  | ignore
  deriving DecidableEq, Repr

/-- The parameters of the core (`00_scope.md` R7): STACK_POLICY and FONT. They are arguments of the model:
a value of this type is carried, unchanged, by every state (log entry 1). -/
structure Config where
  stackPolicy : StackPolicy
  /-- the 80 bytes that LOAD copies to addresses 0 to 79 (`20_memory.md` R53) -/
  font : Vector Byte 80
  deriving DecidableEq, Repr

/-- The default FONT of `20_memory.md` R53, glyph `d` at `5 * d`.
PRESUMED: the spec marks these bytes as general knowledge (log entry 2). -/
def Config.defaultFont : Vector Byte 80 :=
  #v[0xF0, 0x90, 0x90, 0x90, 0xF0,
     0x20, 0x60, 0x20, 0x20, 0x70,
     0xF0, 0x10, 0xF0, 0x80, 0xF0,
     0xF0, 0x10, 0xF0, 0x10, 0xF0,
     0x90, 0x90, 0xF0, 0x10, 0x10,
     0xF0, 0x80, 0xF0, 0x10, 0xF0,
     0xF0, 0x80, 0xF0, 0x90, 0xF0,
     0xF0, 0x10, 0x20, 0x40, 0x40,
     0xF0, 0x90, 0xF0, 0x90, 0xF0,
     0xF0, 0x90, 0xF0, 0x10, 0xF0,
     0xF0, 0x90, 0xF0, 0x90, 0x90,
     0xE0, 0x90, 0xE0, 0x90, 0xE0,
     0xF0, 0x80, 0x80, 0x80, 0xF0,
     0xE0, 0x90, 0x90, 0x90, 0xE0,
     0xF0, 0x80, 0xF0, 0x80, 0xF0,
     0xF0, 0x80, 0xF0, 0x80, 0x80]

/-- The default parameters (`00_scope.md` R7): STACK_POLICY = `fault`, FONT = the table of R53. -/
def Config.default : Config where
  stackPolicy := .fault
  font := Config.defaultFont

/-- STEPS_PER_FRAME, a parameter of the host's schedule and not of the core (`70_reset_and_hazards.md` R257);
this is its default, which no rule of the core depends on. -/
def Config.defaultStepsPerFrame : Nat := 10

/-- The `k`-th random byte of a run whose STEPs are given no explicit `rnd` (`40_cycle.md` R95: "The core
places no constraint on `rnd`"). A FREE VALUE: it has no body, so nothing can be proved of it (log entry 3). -/
opaque Config.freeRnd : Nat → Byte

end Sys2Proof
end

