-- ==== Sys2Proof/Machine/State.lean ====
section
/-! DEFINITION. The state of the core (`10_state.md`), as plain data, its value at construction (R41, R250),
and the reasons a step can stop. -/

namespace Sys2Proof.Machine

/-- `mem` (`20_memory.md` R50): the cells that differ from what an unlisted address reads as (0, the value at
construction: `10_state.md` R41), in rising order of address. -/
abbrev Memory := List Host.Cell

/-- `video` (`44_display.md` R170): 32 rows of 64 one-bit pixels; bit `px` of row `py` is `video[py * 64 + px]`. -/
abbrev Video := Vector (BitVec 64) 32

/-- The two causes of a fault (`60_exceptions.md` R211, R212). -/
inductive FaultCause where
  /-- cause code 1: a call past 16 nested depth -/
  | stackOverflow
  /-- cause code 2: a return with an empty stack -/
  | stackUnderflow
  deriving DecidableEq, Repr

/-- The cause codes of `60_exceptions.md` R211 and R212. -/
def FaultCause.code : FaultCause → Nat
  | .stackOverflow => 1
  | .stackUnderflow => 2

/-- A fault record `(cause, fault_pc, word)` (`10_state.md` R33). -/
structure FaultRecord where
  cause : FaultCause
  /-- the address of the faulting instruction -/
  faultPc : Word
  /-- its instruction word -/
  word : Word
  deriving DecidableEq, Repr

/-- The state of the core: the rows of `10_state.md` R41, and after them three fields of the model's own
(log entries 1 and 3), which no rule of the spec names as state. -/
structure State where
  /-- `V[0..15]`, 8 bits each (R20); `V[15]` is VF (R21) -/
  v : Vector Byte 16
  /-- the index register `I`, 16 bits (R26) -/
  i : Word
  /-- the program counter, 16 bits (R25) -/
  pc : Word
  /-- the stack pointer `SP`, 0 to 16 (R27) -/
  sp : Fin 17
  /-- the call stack, 16 slots of 16 bits (R27) -/
  stack : Vector Word 16
  /-- the delay timer `DT`, 8 bits (R28) -/
  dt : Byte
  /-- the sound timer `ST`, 8 bits (R28) -/
  st : Byte
  /-- the video buffer, 64 × 32 one-bit pixels (R29) -/
  video : Video
  /-- the key array, 1 = down (R30) -/
  keys : Vector Bool 16
  /-- memory, 4096 bytes (R31) -/
  mem : Memory
  /-- the fault record, or `none` (R33) -/
  fault : Option FaultRecord
  /-- the model's own: the parameters of the core, which nothing changes (log entry 1) -/
  cfg : Config
  /-- the model's own: the `rnd` input of the STEP in progress, where the host's transaction gives it
  (`40_cycle.md` R95); `none` leaves the byte a free value (log entry 3) -/
  rndPort : Option Byte
  /-- the model's own: how many random bytes have been drawn, the index of the next free value (log entry 3) -/
  draws : Nat
  deriving DecidableEq, Repr

/-- The reasons the machine stops with a fault: none. The two faults of the spec are recorded in the state and
the machine goes on answering transactions (`60_exceptions.md` R214); every other irregular event is "not an
error" (R210). No definition can raise a value of this type. -/
inductive Fault where
  deriving DecidableEq, Repr

/-- The reasons an instruction has no meaning. -/
inductive Refusal where
  /-- Raised by a rejected arm of `exec` for an instruction without a meaning in the model; safe. No arm is
  rejected: every instruction has its meaning. -/
  | notModelled (mnemonic : String)
  deriving DecidableEq, Repr

/-- The core at construction, before any LOAD (`10_state.md` R41, construction column; `70_reset_and_hazards.md`
R250): everything zero, the keys up, the screen clear, no fault. The last three fields are the model's own:
the default parameters of `00_scope.md` R7, no driven `rnd`, and no byte drawn. -/
def State.reset : State where
  v := Vector.replicate 16 0
  i := 0
  pc := 0
  sp := 0
  stack := Vector.replicate 16 0
  dt := 0
  st := 0
  video := Vector.replicate 32 0
  keys := Vector.replicate 16 false
  mem := []
  fault := none
  cfg := Config.default
  rndPort := none
  draws := 0

end Sys2Proof.Machine
end

