-- ==== Sys2Proof/Syntax.lean ====
section
/-! DEFINITION. The instructions: one constructor per row of `spec/opcode_table.json`
(`30_encoding.md` R74). A word that matches no row is no instruction; the step treats it as the no-op of R75. -/

namespace Sys2Proof

/-- A register index (`10_state.md` R23): always in 0 to 15. -/
abbrev Reg := Fin 16

/-- A 12-bit address operand `nnn`. -/
abbrev Addr12 := BitVec 12

/-- A 4-bit field: the row count `n` of `Dxyn`, or a field that the core ignores (`30_encoding.md` R73). -/
abbrev Nibble := BitVec 4

/-- `VF`, the flag register (`10_state.md` R21). -/
abbrev VF : Reg := 15

/-- The 34 instructions, in the table's order. A field the core ignores (`y` of the shifts, `n` of the
register compares: `30_encoding.md` R73) is kept, so that an instruction and its word determine each other. -/
inductive Instr where
  /-- `00E0` CLS -/
  | cls
  /-- `00EE` RET -/
  | ret
  /-- `1nnn` JP nnn -/
  | jp (nnn : Addr12)
  /-- `2nnn` CALL nnn -/
  | call (nnn : Addr12)
  /-- `3xkk` SE Vx, kk -/
  | seByte (x : Reg) (kk : Byte)
  /-- `4xkk` SNE Vx, kk -/
  | sneByte (x : Reg) (kk : Byte)
  /-- `5xyn` SE Vx, Vy (`n` ignored) -/
  | seReg (x y : Reg) (n : Nibble)
  /-- `6xkk` LD Vx, kk -/
  | ldByte (x : Reg) (kk : Byte)
  /-- `7xkk` ADD Vx, kk -/
  | addByte (x : Reg) (kk : Byte)
  /-- `8xy0` LD Vx, Vy -/
  | ldReg (x y : Reg)
  /-- `8xy1` OR Vx, Vy -/
  | orReg (x y : Reg)
  /-- `8xy2` AND Vx, Vy -/
  | andReg (x y : Reg)
  /-- `8xy3` XOR Vx, Vy -/
  | xorReg (x y : Reg)
  /-- `8xy4` ADD Vx, Vy -/
  | addReg (x y : Reg)
  /-- `8xy5` SUB Vx, Vy -/
  | subReg (x y : Reg)
  /-- `8xy6` SHR Vx (`y` ignored) -/
  | shr (x : Reg) (y : Nibble)
  /-- `8xy7` SUBN Vx, Vy -/
  | subnReg (x y : Reg)
  /-- `8xyE` SHL Vx (`y` ignored) -/
  | shl (x : Reg) (y : Nibble)
  /-- `9xyn` SNE Vx, Vy (`n` ignored) -/
  | sneReg (x y : Reg) (n : Nibble)
  /-- `Annn` LD I, nnn -/
  | ldI (nnn : Addr12)
  /-- `Bnnn` JP V0, nnn -/
  | jpV0 (nnn : Addr12)
  /-- `Cxkk` RND Vx, kk -/
  | rnd (x : Reg) (kk : Byte)
  /-- `Dxyn` DRW Vx, Vy, n -/
  | drw (x y : Reg) (n : Nibble)
  /-- `Ex9E` SKP Vx -/
  | skp (x : Reg)
  /-- `ExA1` SKNP Vx -/
  | sknp (x : Reg)
  /-- `Fx07` LD Vx, DT -/
  | ldVxDT (x : Reg)
  /-- `Fx0A` LD Vx, K -/
  | ldVxK (x : Reg)
  /-- `Fx15` LD DT, Vx -/
  | ldDTVx (x : Reg)
  /-- `Fx18` LD ST, Vx -/
  | ldSTVx (x : Reg)
  /-- `Fx1E` ADD I, Vx -/
  | addI (x : Reg)
  /-- `Fx29` LD F, Vx -/
  | ldF (x : Reg)
  /-- `Fx33` LD B, Vx -/
  | ldB (x : Reg)
  /-- `Fx55` LD [I], Vx -/
  | storeRegs (x : Reg)
  /-- `Fx65` LD Vx, [I] -/
  | loadRegs (x : Reg)
  deriving DecidableEq, Repr

end Sys2Proof
end

