-- ==== Sys2Proof/Machine/Ops.lean ====
section
/-! DEFINITION. The named operations over registers, memory, the call stack and the screen, and fault entry
(`60_exceptions.md` R214). -/

namespace Sys2Proof.Machine

/-! ### Registers (`00_scope.md` R10) -/

/-- `V[x]`. -/
def State.getV (s : State) (x : Reg) : Byte := s.v[x]

/-- `V[x] <- b`. -/
def State.setV (s : State) (x : Reg) (b : Byte) : State := { s with v := s.v.set x.val b x.isLt }

/-- `I <- w`. -/
def State.setI (s : State) (w : Word) : State := { s with i := w }

/-- `pc <- w`. -/
def State.setPc (s : State) (w : Word) : State := { s with pc := w }

/-- `DT <- b`. -/
def State.setDT (s : State) (b : Byte) : State := { s with dt := b }

/-- `ST <- b`. -/
def State.setST (s : State) (b : Byte) : State := { s with st := b }

/-- A write of the whole screen. -/
def State.setVideo (s : State) (vid : Video) : State := { s with video := vid }

/-- `skip` (`00_scope.md` R12): `pc <- pc + 2`, after the pre-advance. -/
def State.skip (s : State) : State := s.setPc (s.pc + 2)

/-- `skip` where a condition holds. -/
def State.skipIf (s : State) (c : Bool) : State := if c then s.skip else s

/-- `pc <- pc - 2`: back to the instruction's own address (`45_input_timers.md` R193). -/
def State.rewind (s : State) : State := s.setPc (s.pc - 2)

/-! ### Memory (`20_memory.md`) -/

/-- The number of cells, MEM_SIZE (`00_scope.md` R7). -/
def memSize : Nat := 4096

/-- The byte at an address; an unlisted one reads as 0, its value at construction (`10_state.md` R41). -/
def Memory.read : Memory → Nat → Byte
  | [], _ => 0
  | (a, b) :: rest, k => if a = k then b else Memory.read rest k

/-- The memory with one byte changed; the cells stay in rising order and none holds a 0. -/
def Memory.write : Memory → Nat → Byte → Memory
  | [], k, b => if b = 0 then [] else [(k, b)]
  | (a, c) :: rest, k, b =>
    if k < a then (if b = 0 then (a, c) :: rest else (k, b) :: (a, c) :: rest)
    else if k = a then (if b = 0 then rest else (k, b) :: rest)
    else (a, c) :: Memory.write rest k b

/-- The cells are in strictly rising order from `lo` on, inside memory, and none holds a 0. -/
def Memory.wfFrom : Nat → Memory → Bool
  | _, [] => true
  | lo, (a, b) :: rest => decide (lo ≤ a) && decide (a < memSize) && decide (b ≠ 0) && Memory.wfFrom (a + 1) rest

/-- The canonical form: equal memories are equal lists. -/
def Memory.wf (m : Memory) : Bool := Memory.wfFrom 0 m

/-- `MemRead(a, 1)` (`00_scope.md` R11): the address is taken modulo 4096 (`20_memory.md` R52). -/
def State.memRead (s : State) (a : Nat) : Byte := s.mem.read (a % memSize)

/-- `MemWrite(a, 1, b)` (`00_scope.md` R11). -/
def State.memWrite (s : State) (a : Nat) (b : Byte) : State := { s with mem := s.mem.write (a % memSize) b }

/-! ### The call stack (`10_state.md` R27) -/

/-- A push: `stack[SP] <- w`, then `SP <- SP + 1`; `none` when `SP = 16`. -/
def State.push? (s : State) (w : Word) : Option State :=
  if h : s.sp.val < 16 then
    some { s with stack := s.stack.set s.sp.val w h, sp := ⟨s.sp.val + 1, by omega⟩ }
  else none

/-- A pop: `SP <- SP - 1`, then the read of `stack[SP]`; `none` when `SP = 0`. The slot keeps its value. -/
def State.pop? (s : State) : Option (Word × State) :=
  if h : 0 < s.sp.val then
    some (s.stack[s.sp.val - 1]'(by omega), { s with sp := ⟨s.sp.val - 1, by omega⟩ })
  else none

/-! ### Faults (`60_exceptions.md`) -/

/-- Fault entry (`60_exceptions.md` R214), applied to the state the instruction started from (after the
pre-advance): `fault <- (cause, pc0, w)` and `pc <- pc0`, nothing else. There is no return from a fault:
only a successful LOAD clears the record (R215). -/
def State.raise (s : State) (cause : FaultCause) (w : Word) : State :=
  { s with fault := some ⟨cause, s.pc - 2, w⟩, pc := s.pc - 2 }

/-- What a push on a full stack or a pop on an empty one does (`60_exceptions.md` R213): raise under the policy
`fault`; under `ignore`, go on with the rest of the instruction, given as `proceed`. -/
def State.stackError (s : State) (cause : FaultCause) (w : Word) (proceed : State) : State :=
  match s.cfg.stackPolicy with
  | .fault => s.raise cause w
  | .ignore => proceed

/-! ### The random byte (`40_cycle.md` R95) -/

/-- `rnd`: the byte given to this STEP, or a free value where none is given. -/
def State.rndByte (s : State) : Byte := s.rndPort.getD (Config.freeRnd s.draws)

/-- One random byte has been drawn. -/
def State.countDraw (s : State) : State := { s with draws := s.draws + 1 }

/-- The `rnd` input is given (`some`), or left free (`none`). -/
def State.setRndPort (s : State) (r : Option Byte) : State := { s with rndPort := r }

/-! ### The screen (`44_display.md` R170) -/

/-- Pixel `(px, py)`, 1 = set. -/
def Video.pixel (vid : Video) (px : Fin 64) (py : Fin 32) : Bool := vid[py].getLsbD px.val

/-- `video[k]`, the pixel of column `k mod 64` and row `k div 64` (`index = y * 64 + x`). -/
def Video.index (vid : Video) (k : Fin 2048) : Bool :=
  Video.pixel vid ⟨k.val % 64, by omega⟩ ⟨k.val / 64, by omega⟩

/-- The screen with pixel `(px, py)` XORed with 1. -/
def Video.toggle (vid : Video) (px : Fin 64) (py : Fin 32) : Video :=
  vid.set py.val (vid[py] ^^^ (1#64 <<< px.val)) py.isLt

/-- The screen with every pixel 0. -/
def Video.clear : Video := Vector.replicate 32 0

/-! ### Keys (`60_exceptions.md` R223) -/

/-- `keys[k]`, true = down. -/
def State.getKey (s : State) (k : Fin 16) : Bool := s.keys[k]

/-- `keys[k] <- pressed`. -/
def State.setKey (s : State) (k : Fin 16) (pressed : Bool) : State :=
  { s with keys := s.keys.set k.val pressed k.isLt }

/-- The lowest-indexed key that is down, if any is (`45_input_timers.md` R193). -/
def State.lowestKey (s : State) : Option (Fin 16) := (List.finRange 16).find? s.getKey

end Sys2Proof.Machine
end

