-- ==== Sys2Proof/Machine/Flags.lean ====
section
/-! DEFINITION. The values VF takes as a flag (`10_state.md` R24, `42_alu.md` R133). -/

namespace Sys2Proof.Machine

/-- A flag as a register value: 1 or 0. -/
def flagByte (b : Bool) : Byte := if b then 1 else 0

/-- Carry of `8xy4`: the unbounded sum exceeds 255 (`42_alu.md` R126). -/
def carryOut (a b : Byte) : Bool := decide (255 < a.toNat + b.toNat)

/-- NOT-borrow of `a - b`: the minuend is at least the subtrahend (`42_alu.md` R127, R129). -/
def notBorrow (a b : Byte) : Bool := decide (b.toNat ≤ a.toNat)

/-- The bit a right shift moves out: bit 0 (`42_alu.md` R128). -/
def outOfRight (a : Byte) : Bool := a.getLsbD 0

/-- The bit a left shift moves out: bit 7 (`42_alu.md` R130). -/
def outOfLeft (a : Byte) : Bool := a.getLsbD 7

/-- `V[15] <- flag`. -/
def State.setFlag (s : State) (b : Bool) : State := s.setV VF (flagByte b)

end Sys2Proof.Machine
end

