-- ==== Sys2Proof/Machine/Alu.lean ====
section
/-! DEFINITION. Register loads and the ALU (`42_alu.md`). Statements run in the order of the rule, each reading
the registers as the ones before it left them (`42_alu.md` R132). -/

namespace Sys2Proof.Machine

/-- LD Vx, kk (`42_alu.md` R120). -/
def execLdByte (x : Reg) (kk : Byte) (s : State) : Host.Outcome State Fault Refusal :=
  .next (s.setV x kk)

/-- ADD Vx, kk (`42_alu.md` R121): no flag. -/
def execAddByte (x : Reg) (kk : Byte) (s : State) : Host.Outcome State Fault Refusal :=
  .next (s.setV x (s.getV x + kk))

/-- LD Vx, Vy (`42_alu.md` R122). -/
def execLdReg (x y : Reg) (s : State) : Host.Outcome State Fault Refusal :=
  .next (s.setV x (s.getV y))

/-- OR Vx, Vy (`42_alu.md` R123): no flag. -/
def execOrReg (x y : Reg) (s : State) : Host.Outcome State Fault Refusal :=
  .next (s.setV x (s.getV x ||| s.getV y))

/-- AND Vx, Vy (`42_alu.md` R124): no flag. -/
def execAndReg (x y : Reg) (s : State) : Host.Outcome State Fault Refusal :=
  .next (s.setV x (s.getV x &&& s.getV y))

/-- XOR Vx, Vy (`42_alu.md` R125): no flag. -/
def execXorReg (x y : Reg) (s : State) : Host.Outcome State Fault Refusal :=
  .next (s.setV x (s.getV x ^^^ s.getV y))

/-- ADD Vx, Vy (`42_alu.md` R126): the sum is formed first, the carry is written last. -/
def execAddReg (x y : Reg) (s : State) : Host.Outcome State Fault Refusal :=
  .next ((s.setV x (s.getV x + s.getV y)).setFlag (carryOut (s.getV x) (s.getV y)))

/-- SUB Vx, Vy (`42_alu.md` R127): the flag is written first, and the difference reads it where a field
names VF (R132). -/
def execSubReg (x y : Reg) (s : State) : Host.Outcome State Fault Refusal :=
  let s' := s.setFlag (notBorrow (s.getV x) (s.getV y))
  .next (s'.setV x (s'.getV x - s'.getV y))

/-- SHR Vx (`42_alu.md` R128): the flag is written first (R132). -/
def execShr (x : Reg) (s : State) : Host.Outcome State Fault Refusal :=
  let s' := s.setFlag (outOfRight (s.getV x))
  .next (s'.setV x (s'.getV x >>> 1))

/-- SUBN Vx, Vy (`42_alu.md` R129): the flag is written first (R132). -/
def execSubnReg (x y : Reg) (s : State) : Host.Outcome State Fault Refusal :=
  let s' := s.setFlag (notBorrow (s.getV y) (s.getV x))
  .next (s'.setV x (s'.getV y - s'.getV x))

/-- SHL Vx (`42_alu.md` R130): the flag is written first (R132). -/
def execShl (x : Reg) (s : State) : Host.Outcome State Fault Refusal :=
  let s' := s.setFlag (outOfLeft (s.getV x))
  .next (s'.setV x (s'.getV x <<< 1))

/-- RND Vx, kk (`42_alu.md` R131): `V[x] <- rnd & kk`, with `rnd` an unconstrained input (`40_cycle.md` R95). -/
def execRnd (x : Reg) (kk : Byte) (s : State) : Host.Outcome State Fault Refusal :=
  .next (s.setV x (s.rndByte &&& kk)).countDraw

end Sys2Proof.Machine
end

