-- ==== Sys2Proof/Decode.lean ====
section
/-! DEFINITION. The decoder, total on the 65536 words (`30_encoding.md` R73 to R77), and the encoder, written
from the layouts of R71 and R74. -/

namespace Sys2Proof

/-! ### Fields of the instruction word (`30_encoding.md` R71) -/

/-- `c = w[15:12]`, the opcode class. -/
def Fields.opClass (w : Word) : Nibble := w.extractLsb' 12 4

/-- `nnn = w[11:0]`. -/
def Fields.nnn (w : Word) : Addr12 := w.extractLsb' 0 12

/-- `x = w[11:8]`, a register index. -/
def Fields.x (w : Word) : Reg := (w.extractLsb' 8 4).toFin

/-- `w[7:4]` as bits: the field `y` where the core ignores it. -/
def Fields.yBits (w : Word) : Nibble := w.extractLsb' 4 4

/-- `y = w[7:4]`, a register index. -/
def Fields.y (w : Word) : Reg := (Fields.yBits w).toFin

/-- `n = w[3:0]`. -/
def Fields.n (w : Word) : Nibble := w.extractLsb' 0 4

/-- `kk = w[7:0]`. -/
def Fields.kk (w : Word) : Byte := w.extractLsb' 0 8

/-! ### Decoding -/

/-- Why a word is unrecognized (`30_encoding.md` R75): the class whose sub-key it misses. -/
inductive Unrecognized where
  /-- class 0, and neither 0x00E0 nor 0x00EE -/
  | class0
  /-- class 8 with `n` in 8, 9, A, B, C, D, F -/
  | class8
  /-- class E with `kk` other than 0x9E and 0xA1 -/
  | classE
  /-- class F with `kk` other than the nine bytes of the table -/
  | classF
  deriving DecidableEq, Repr

/-- Class 0: the sub-key is the whole word (`30_encoding.md` R73, `90_conflicts.md` C5). -/
def decodeClass0 (w : Word) : Except Unrecognized Instr :=
  if w = 0x00E0 then .ok .cls
  else if w = 0x00EE then .ok .ret
  else .error .class0

/-- Class 8: the sub-key is `n` (`30_encoding.md` R73). -/
def decodeClass8 (w : Word) : Except Unrecognized Instr :=
  let x := Fields.x w
  let y := Fields.y w
  let n := Fields.n w
  if n = 0x0 then .ok (.ldReg x y)
  else if n = 0x1 then .ok (.orReg x y)
  else if n = 0x2 then .ok (.andReg x y)
  else if n = 0x3 then .ok (.xorReg x y)
  else if n = 0x4 then .ok (.addReg x y)
  else if n = 0x5 then .ok (.subReg x y)
  else if n = 0x6 then .ok (.shr x (Fields.yBits w))
  else if n = 0x7 then .ok (.subnReg x y)
  else if n = 0xE then .ok (.shl x (Fields.yBits w))
  else .error .class8

/-- Class E: the sub-key is `kk` (`30_encoding.md` R73). -/
def decodeClassE (w : Word) : Except Unrecognized Instr :=
  let x := Fields.x w
  let kk := Fields.kk w
  if kk = 0x9E then .ok (.skp x)
  else if kk = 0xA1 then .ok (.sknp x)
  else .error .classE

/-- Class F: the sub-key is `kk` (`30_encoding.md` R73). -/
def decodeClassF (w : Word) : Except Unrecognized Instr :=
  let x := Fields.x w
  let kk := Fields.kk w
  if kk = 0x07 then .ok (.ldVxDT x)
  else if kk = 0x0A then .ok (.ldVxK x)
  else if kk = 0x15 then .ok (.ldDTVx x)
  else if kk = 0x18 then .ok (.ldSTVx x)
  else if kk = 0x1E then .ok (.addI x)
  else if kk = 0x29 then .ok (.ldF x)
  else if kk = 0x33 then .ok (.ldB x)
  else if kk = 0x55 then .ok (.storeRegs x)
  else if kk = 0x65 then .ok (.loadRegs x)
  else .error .classF

/-- The decoder: a total function of the word alone (`30_encoding.md` R73, R77). The classes without a
sub-key select their instruction whatever the remaining bits are. -/
def decode (w : Word) : Except Unrecognized Instr :=
  match Fields.opClass w with
  | 0x0#4 => decodeClass0 w
  | 0x1#4 => .ok (.jp (Fields.nnn w))
  | 0x2#4 => .ok (.call (Fields.nnn w))
  | 0x3#4 => .ok (.seByte (Fields.x w) (Fields.kk w))
  | 0x4#4 => .ok (.sneByte (Fields.x w) (Fields.kk w))
  | 0x5#4 => .ok (.seReg (Fields.x w) (Fields.y w) (Fields.n w))
  | 0x6#4 => .ok (.ldByte (Fields.x w) (Fields.kk w))
  | 0x7#4 => .ok (.addByte (Fields.x w) (Fields.kk w))
  | 0x8#4 => decodeClass8 w
  | 0x9#4 => .ok (.sneReg (Fields.x w) (Fields.y w) (Fields.n w))
  | 0xA#4 => .ok (.ldI (Fields.nnn w))
  | 0xB#4 => .ok (.jpV0 (Fields.nnn w))
  | 0xC#4 => .ok (.rnd (Fields.x w) (Fields.kk w))
  | 0xD#4 => .ok (.drw (Fields.x w) (Fields.y w) (Fields.n w))
  | 0xE#4 => decodeClassE w
  | _ => decodeClassF w -- 0xF, the one class left

/-! ### Encoding: the five formats (`30_encoding.md` R71) -/

/-- Format `A`: `cccc nnnn nnnn nnnn`. -/
def encodeA (c : Nibble) (nnn : Addr12) : Word := c ++ nnn

/-- Format `XK`: `cccc xxxx kkkk kkkk`. -/
def encodeXK (c : Nibble) (x : Reg) (kk : Byte) : Word := (c ++ BitVec.ofFin (w := 4) x) ++ kk

/-- Formats `XY` and `XYN`: `cccc xxxx yyyy nnnn`, the fields `y` and `n` given as bits. -/
def encodeXYN (c : Nibble) (x : Reg) (y n : Nibble) : Word := encodeXK c x (y ++ n)

/-- Format `XY` with a register `y`. -/
def encodeXY (c : Nibble) (x y : Reg) (n : Nibble) : Word := encodeXYN c x (BitVec.ofFin (w := 4) y) n

/-- The word of an instruction (the rows of `30_encoding.md` R74). -/
def encode : Instr → Word
  | .cls => 0x00E0
  | .ret => 0x00EE
  | .jp nnn => encodeA 0x1 nnn
  | .call nnn => encodeA 0x2 nnn
  | .seByte x kk => encodeXK 0x3 x kk
  | .sneByte x kk => encodeXK 0x4 x kk
  | .seReg x y n => encodeXY 0x5 x y n
  | .ldByte x kk => encodeXK 0x6 x kk
  | .addByte x kk => encodeXK 0x7 x kk
  | .ldReg x y => encodeXY 0x8 x y 0x0
  | .orReg x y => encodeXY 0x8 x y 0x1
  | .andReg x y => encodeXY 0x8 x y 0x2
  | .xorReg x y => encodeXY 0x8 x y 0x3
  | .addReg x y => encodeXY 0x8 x y 0x4
  | .subReg x y => encodeXY 0x8 x y 0x5
  | .shr x y => encodeXYN 0x8 x y 0x6
  | .subnReg x y => encodeXY 0x8 x y 0x7
  | .shl x y => encodeXYN 0x8 x y 0xE
  | .sneReg x y n => encodeXY 0x9 x y n
  | .ldI nnn => encodeA 0xA nnn
  | .jpV0 nnn => encodeA 0xB nnn
  | .rnd x kk => encodeXK 0xC x kk
  | .drw x y n => encodeXY 0xD x y n
  | .skp x => encodeXK 0xE x 0x9E
  | .sknp x => encodeXK 0xE x 0xA1
  | .ldVxDT x => encodeXK 0xF x 0x07
  | .ldVxK x => encodeXK 0xF x 0x0A
  | .ldDTVx x => encodeXK 0xF x 0x15
  | .ldSTVx x => encodeXK 0xF x 0x18
  | .addI x => encodeXK 0xF x 0x1E
  | .ldF x => encodeXK 0xF x 0x29
  | .ldB x => encodeXK 0xF x 0x33
  | .storeRegs x => encodeXK 0xF x 0x55
  | .loadRegs x => encodeXK 0xF x 0x65

/-! ### Bytes -/

/-- The instruction word of two bytes, big-endian: `b1 ++ b2` with `b1` the byte at the lower address
(`20_memory.md` R55, `30_encoding.md` R70). -/
def wordOfBytes (b1 b2 : Byte) : Word := b1 ++ b2

/-- The byte at the lower address, `w[15:8]`. -/
def highByte (w : Word) : Byte := w.extractLsb' 8 8

/-- The byte at the higher address, `w[7:0]`. -/
def lowByte (w : Word) : Byte := w.extractLsb' 0 8

/-- The word of the opcode table's numbering (bit 0 least significant) cut to the row's `nbits`. -/
def tableWord (nbits w : Nat) : Word := BitVec.ofNat 16 (w % 2 ^ nbits)

/-- The decoder's reading of an instruction whose bits, numbered as the opcode table numbers them, are `w`:
its word is laid out in memory order and read back. -/
def decodeTableWord (nbits w : Nat) : Option Instr :=
  (decode (wordOfBytes (highByte (tableWord nbits w)) (lowByte (tableWord nbits w)))).toOption

end Sys2Proof
end

