-- ==== Sys2Proof/Machine/Operands.lean ====
section
/-! DEFINITION. Operand forms (`30_encoding.md` R72, `43_index_memory.md` R156) and the values instructions
form from a register. -/

namespace Sys2Proof.Machine

/-- An address operand zero-extended to 16 bits (`30_encoding.md` R72). -/
def addrOperand (nnn : Addr12) : Word := nnn.setWidth 16

/-- A register's value zero-extended to 16 bits. -/
def wordOperand (b : Byte) : Word := b.setWidth 16

/-- The address a data access through `I` forms, before `MemRead` and `MemWrite` reduce it modulo 4096: the
unbounded sum `I + offset` (`43_index_memory.md` R156). -/
def State.indexed (s : State) (offset : Nat) : Nat := s.i.toNat + offset

/-- The cell a data access through `I` reaches: `(I + offset) mod 4096` (`43_index_memory.md` R156). -/
def State.effAddr (s : State) (offset : Nat) : Nat := s.indexed offset % memSize

/-- Registers `V[0]` to `V[x]`, in ascending order (`43_index_memory.md` R154, R155). -/
def regsUpTo (x : Reg) : List Reg := (List.finRange 16).filter (· ≤ x)

/-- The key a register value names: its low four bits (`45_input_timers.md` R196). -/
def keyIndex (b : Byte) : Fin 16 := ⟨b.toNat % 16, by omega⟩

/-- A key's number as a register value (`45_input_timers.md` R193). -/
def keyByte (k : Fin 16) : Byte := BitVec.ofNat 8 k.val

/-- The address of the font glyph for a register value: 5 bytes a glyph, from 0 (`43_index_memory.md` R152). -/
def glyphAddr (b : Byte) : Word := wordOperand b * 5

/-- The hundreds, tens and units digits (`43_index_memory.md` R153). -/
def decimalDigits (b : Byte) : Byte × Byte × Byte := (b / 100, b / 10 % 10, b % 10)

/-- The column of a sprite's left edge: `V[x] mod 64` (`44_display.md` R173). -/
def originColumn (b : Byte) : Nat := b.toNat % 64

/-- The row of a sprite's top edge: `V[y] mod 32` (`44_display.md` R173, `90_conflicts.md` C1). -/
def originRow (b : Byte) : Nat := b.toNat % 32

end Sys2Proof.Machine
end

