-- ==== Sys2Proof/Machine/Control.lean ====
section
/-! DEFINITION. Control transfer (`41_control_flow.md`). In every meaning of the model `s.pc` is already the
instruction's address + 2 (`40_cycle.md` R93). -/

namespace Sys2Proof.Machine

/-- RET (`41_control_flow.md` R100); on an empty stack StackUnderflow, or a no-op under `ignore`. -/
def execRet (s : State) : Host.Outcome State Fault Refusal :=
  match s.pop? with
  | some (target, s') => .next (s'.setPc target)
  | none => .next (s.stackError .stackUnderflow (encode .ret) s)

/-- JP nnn (`41_control_flow.md` R101). -/
def execJp (nnn : Addr12) (s : State) : Host.Outcome State Fault Refusal :=
  .next (s.setPc (addrOperand nnn))

/-- CALL nnn (`41_control_flow.md` R102); on a full stack StackOverflow, or the jump alone under `ignore`. -/
def execCall (nnn : Addr12) (s : State) : Host.Outcome State Fault Refusal :=
  match s.push? s.pc with
  | some s' => .next (s'.setPc (addrOperand nnn))
  | none => .next (s.stackError .stackOverflow (encode (.call nnn)) (s.setPc (addrOperand nnn)))

/-- SE Vx, kk (`41_control_flow.md` R103). -/
def execSeByte (x : Reg) (kk : Byte) (s : State) : Host.Outcome State Fault Refusal :=
  .next (s.skipIf (s.getV x == kk))

/-- SNE Vx, kk (`41_control_flow.md` R104). -/
def execSneByte (x : Reg) (kk : Byte) (s : State) : Host.Outcome State Fault Refusal :=
  .next (s.skipIf (s.getV x != kk))

/-- SE Vx, Vy (`41_control_flow.md` R105). -/
def execSeReg (x y : Reg) (s : State) : Host.Outcome State Fault Refusal :=
  .next (s.skipIf (s.getV x == s.getV y))

/-- SNE Vx, Vy (`41_control_flow.md` R106). -/
def execSneReg (x y : Reg) (s : State) : Host.Outcome State Fault Refusal :=
  .next (s.skipIf (s.getV x != s.getV y))

/-- JP V0, nnn (`41_control_flow.md` R107): the sum is not reduced modulo 4096. -/
def execJpV0 (nnn : Addr12) (s : State) : Host.Outcome State Fault Refusal :=
  .next (s.setPc (wordOperand (s.getV 0) + addrOperand nnn))

/-- An unrecognized word (`30_encoding.md` R75): nothing beyond the pre-advance. -/
def execUnrecognized (s : State) : Host.Outcome State Fault Refusal :=
  .next s

end Sys2Proof.Machine
end

