-- ==== Sys2Proof/Machine/Display.lean ====
section
/-! DEFINITION. Clear and XOR-draw with collision (`44_display.md`). -/

namespace Sys2Proof.Machine

/-- CLS (`44_display.md` R171): VF is unchanged. -/
def execCls (s : State) : Host.Outcome State Fault Refusal :=
  .next (s.setVideo Video.clear)

/-- One 1 bit of a sprite (`44_display.md` R172): a collision if the pixel was set, and the pixel is toggled. -/
def drawPixel (px : Fin 64) (py : Fin 32) (p : Video × Bool) : Video × Bool :=
  (Video.toggle p.1 px py, p.2 || Video.pixel p.1 px py)

/-- Row `r` of a sprite with origin `(ox, oy)` (`44_display.md` R172, R174, R175): the bits of `b`, most
significant first, each at its own position wrapped to the screen. -/
def drawRow (ox oy r : Nat) (b : Byte) (p : Video × Bool) : Video × Bool :=
  (List.range 8).foldl
    (fun p c => if b.getLsbD (7 - c) then drawPixel (Fin.ofNat 64 (ox + c)) (Fin.ofNat 32 (oy + r)) p else p) p

/-- The rows of a sprite (`44_display.md` R172): row `r` is the byte at `(I + r) mod 4096` (R175). -/
def drawSprite (s : State) (ox oy n : Nat) (p : Video × Bool) : Video × Bool :=
  (List.range n).foldl (fun p r => drawRow ox oy r (s.memRead (s.indexed r)) p) p

/-- DRW Vx, Vy, n (`44_display.md` R172): the origin is read before VF is written (R173), and VF ends as the
collision flag of the whole draw (R176). -/
def execDrw (x y : Reg) (n : Nibble) (s : State) : Host.Outcome State Fault Refusal :=
  let drawn := drawSprite s (originColumn (s.getV x)) (originRow (s.getV y)) n.toNat (s.video, false)
  .next ((s.setVideo drawn.1).setFlag drawn.2)

end Sys2Proof.Machine
end

