-- ==== Sys2Proof/Machine/Index.lean ====
section
/-! DEFINITION. The index register and memory transfers (`43_index_memory.md`). -/

namespace Sys2Proof.Machine

/-- LD I, nnn (`43_index_memory.md` R150). -/
def execLdI (nnn : Addr12) (s : State) : Host.Outcome State Fault Refusal :=
  .next (s.setI (addrOperand nnn))

/-- ADD I, Vx (`43_index_memory.md` R151): wraps at 16 bits, no flag. -/
def execAddI (x : Reg) (s : State) : Host.Outcome State Fault Refusal :=
  .next (s.setI (s.i + wordOperand (s.getV x)))

/-- LD F, Vx (`43_index_memory.md` R152): the whole of `V[x]` is used. -/
def execLdF (x : Reg) (s : State) : Host.Outcome State Fault Refusal :=
  .next (s.setI (glyphAddr (s.getV x)))

/-- LD B, Vx (`43_index_memory.md` R153). -/
def execLdB (x : Reg) (s : State) : Host.Outcome State Fault Refusal :=
  let (hundreds, tens, units) := decimalDigits (s.getV x)
  .next (((s.memWrite (s.indexed 0) hundreds).memWrite (s.indexed 1) tens).memWrite (s.indexed 2) units)

/-- `for i in rs: MemWrite(I + i, 1, V[i])` (`43_index_memory.md` R154). -/
def storeEach (rs : List Reg) (s : State) : State :=
  rs.foldl (fun t r => t.memWrite (t.indexed r.val) (t.getV r)) s

/-- `for i in rs: V[i] <- MemRead(I + i, 1)` (`43_index_memory.md` R155). -/
def loadEach (rs : List Reg) (s : State) : State :=
  rs.foldl (fun t r => t.setV r (t.memRead (t.indexed r.val))) s

/-- LD [I], Vx (`43_index_memory.md` R154): `I` is unchanged. -/
def execStoreRegs (x : Reg) (s : State) : Host.Outcome State Fault Refusal :=
  .next (storeEach (regsUpTo x) s)

/-- LD Vx, [I] (`43_index_memory.md` R155): `I` is unchanged. -/
def execLoadRegs (x : Reg) (s : State) : Host.Outcome State Fault Refusal :=
  .next (loadEach (regsUpTo x) s)

end Sys2Proof.Machine
end

