-- ==== Sys2Proof/Machine/Input.lean ====
section
/-! DEFINITION. Key and timer instructions (`45_input_timers.md`). -/

namespace Sys2Proof.Machine

/-- SKP Vx (`45_input_timers.md` R190). -/
def execSkp (x : Reg) (s : State) : Host.Outcome State Fault Refusal :=
  .next (s.skipIf (s.getKey (keyIndex (s.getV x))))

/-- SKNP Vx (`45_input_timers.md` R191). -/
def execSknp (x : Reg) (s : State) : Host.Outcome State Fault Refusal :=
  .next (s.skipIf (!s.getKey (keyIndex (s.getV x))))

/-- LD Vx, DT (`45_input_timers.md` R192). -/
def execLdVxDT (x : Reg) (s : State) : Host.Outcome State Fault Refusal :=
  .next (s.setV x s.dt)

/-- LD Vx, K (`45_input_timers.md` R193): the lowest key down, or back to this instruction. -/
def execLdVxK (x : Reg) (s : State) : Host.Outcome State Fault Refusal :=
  match s.lowestKey with
  | some k => .next (s.setV x (keyByte k))
  | none => .next s.rewind

/-- LD DT, Vx (`45_input_timers.md` R194). -/
def execLdDTVx (x : Reg) (s : State) : Host.Outcome State Fault Refusal :=
  .next (s.setDT (s.getV x))

/-- LD ST, Vx (`45_input_timers.md` R195). -/
def execLdSTVx (x : Reg) (s : State) : Host.Outcome State Fault Refusal :=
  .next (s.setST (s.getV x))

end Sys2Proof.Machine
end

