-- ==== Sys2Proof/Machine/Fetch.lean ====
section
/-! DEFINITION. The guard, the fetch and the pre-advance of STEP (`40_cycle.md` R91 to R93). -/

namespace Sys2Proof.Machine

/-- The halted condition (`10_state.md` R32): `pc + 1 > 4095`, in unbounded arithmetic. -/
def State.halted (s : State) : Bool := decide (4095 < s.pc.toNat + 1)

/-- STEP has no effect at all (`40_cycle.md` R91): a fault is recorded, or the core is halted. -/
def State.idle (s : State) : Bool := s.fault.isSome || s.halted

/-- `w <- mem[pc] ++ mem[pc + 1]` (`40_cycle.md` R92): the fetch reads `mem` directly and never wraps. -/
def State.fetchWord (s : State) : Word := wordOfBytes (s.mem.read s.pc.toNat) (s.mem.read (s.pc.toNat + 1))

/-- `pc <- pc + 2`, before execution (`40_cycle.md` R93). -/
def State.preAdvance (s : State) : State := s.setPc (s.pc + 2)

/-- The word stored where STEP fetches: at `pc`, high byte first. An idle state is first made one that fetches:
the fault record is cleared, and a halted `pc` becomes 0x200, the entry point (`20_memory.md` R53). -/
def State.placeWord (s : State) (w : Word) : State :=
  let pc := if s.halted then 0x200 else s.pc
  { s with
    fault := none
    pc := pc
    mem := (s.mem.write pc.toNat (highByte w)).write (pc.toNat + 1) (lowByte w) }

end Sys2Proof.Machine
end

