-- ==== Sys2Proof/Machine/Step.lean ====
section
/-! DEFINITION. STEP (`40_cycle.md` R90 to R97): at most one instruction. -/

namespace Sys2Proof.Machine

/-- STEP, with the `rnd` of the state's port (a free value where none is given): nothing when idle (R91), else
fetch (R92), pre-advance (R93) and execute (R94); an unrecognized word is a no-op (`30_encoding.md` R75). -/
def step (s : State) : Host.Outcome State Fault Refusal :=
  if s.idle then .next s
  else
    match decode s.fetchWord with
    | .ok i => exec i s.preAdvance
    | .error _ => execUnrecognized s.preAdvance

/-- The state with the instruction whose bits, numbered as the opcode table numbers them, are `w` stored where
`step` fetches its next instruction. -/
def State.withFetchWord (s : State) (nbits w : Nat) : State :=
  s.placeWord (tableWord nbits w)

end Sys2Proof.Machine
end

