-- ==== Sys2Proof/Assembly.lean ====
section
/-! DEFINITION. The assembler syntax (`30_encoding.md` R78; mnemonics and syntax from general knowledge, as the
spec says): the text of an instruction, and the bytes of a program's lines. -/

namespace Sys2Proof

/-- An uppercase hexadecimal digit. -/
def hexDigit (d : Fin 16) : String :=
  ["0", "1", "2", "3", "4", "5", "6", "7", "8", "9", "A", "B", "C", "D", "E", "F"].getD d.val ""

/-- The last `digits` hexadecimal digits of a number. -/
def hexDigits : Nat → Nat → String
  | 0, _ => ""
  | digits + 1, k => hexDigits digits (k / 16) ++ hexDigit (Fin.ofNat 16 k)

/-- `V0` to `VF`. -/
def regText (x : Reg) : String := "V" ++ hexDigit x

/-- `kk`, with the prefix `0x`. -/
def byteText (kk : Byte) : String := "0x" ++ hexDigits 2 kk.toNat

/-- `nnn`, with the prefix `0x`. -/
def addrText (nnn : Addr12) : String := "0x" ++ hexDigits 3 nnn.toNat

/-- `n`, in decimal. -/
def countText (n : Nibble) : String :=
  if n.toNat < 10 then hexDigits 1 n.toNat else "1" ++ hexDigits 1 (n.toNat - 10)

/-- A mnemonic and its operands, separated by commas. -/
def line (mnemonic : String) (operands : List String) : String :=
  if operands = [] then mnemonic else mnemonic ++ " " ++ String.intercalate ", " operands

/-- The instruction in assembler syntax; the ignored fields have no place in it. -/
def Instr.text : Instr → String
  | .cls => line "CLS" []
  | .ret => line "RET" []
  | .jp nnn => line "JP" [addrText nnn]
  | .call nnn => line "CALL" [addrText nnn]
  | .seByte x kk => line "SE" [regText x, byteText kk]
  | .sneByte x kk => line "SNE" [regText x, byteText kk]
  | .seReg x y _ => line "SE" [regText x, regText y]
  | .ldByte x kk => line "LD" [regText x, byteText kk]
  | .addByte x kk => line "ADD" [regText x, byteText kk]
  | .ldReg x y => line "LD" [regText x, regText y]
  | .orReg x y => line "OR" [regText x, regText y]
  | .andReg x y => line "AND" [regText x, regText y]
  | .xorReg x y => line "XOR" [regText x, regText y]
  | .addReg x y => line "ADD" [regText x, regText y]
  | .subReg x y => line "SUB" [regText x, regText y]
  | .shr x _ => line "SHR" [regText x]
  | .subnReg x y => line "SUBN" [regText x, regText y]
  | .shl x _ => line "SHL" [regText x]
  | .sneReg x y _ => line "SNE" [regText x, regText y]
  | .ldI nnn => line "LD" ["I", addrText nnn]
  | .jpV0 nnn => line "JP" ["V0", addrText nnn]
  | .rnd x kk => line "RND" [regText x, byteText kk]
  | .drw x y n => line "DRW" [regText x, regText y, countText n]
  | .skp x => line "SKP" [regText x]
  | .sknp x => line "SKNP" [regText x]
  | .ldVxDT x => line "LD" [regText x, "DT"]
  | .ldVxK x => line "LD" [regText x, "K"]
  | .ldDTVx x => line "LD" ["DT", regText x]
  | .ldSTVx x => line "LD" ["ST", regText x]
  | .addI x => line "ADD" ["I", regText x]
  | .ldF x => line "LD" ["F", regText x]
  | .ldB x => line "LD" ["B", regText x]
  | .storeRegs x => line "LD" ["[I]", regText x]
  | .loadRegs x => line "LD" [regText x, "[I]"]

/-- A line of a program: an instruction, or the directive `DB`. -/
inductive SourceLine where
  | instr (i : Instr)
  | db (bytes : List Byte)
  deriving DecidableEq, Repr

/-- The line's text. -/
def SourceLine.text : SourceLine → String
  | .instr i => i.text
  | .db bytes => line "DB" (bytes.map byteText)

/-- The line is as the assembler takes it: ignored fields 0. -/
def SourceLine.asAssembled : SourceLine → Bool
  | .instr i => i.asAssembled
  | .db _ => true

/-- The line's bytes: the instruction's word, high byte first (R70), or the data of `DB`. -/
def SourceLine.bytes : SourceLine → List Byte
  | .instr i => [highByte (encode i), lowByte (encode i)]
  | .db bytes => bytes

/-- The image of a program: the bytes of its lines, one after the other. -/
def assemble (program : List SourceLine) : List Byte := program.flatMap SourceLine.bytes

end Sys2Proof
end

