-- ==== Sys2Proof/Machine/Transactions.lean ====
section
/-! DEFINITION. The host interface (`10_state.md` R40): the transactions LOAD, SET_KEY, TICK, STEP(rnd) and the
read-outs, each atomic, and the host's frame order (`70_reset_and_hazards.md` R256). -/

namespace Sys2Proof.Machine

/-! ### LOAD (`70_reset_and_hazards.md` R251 to R254) -/

/-- The cells of bytes laid out from an address up, in canonical form. -/
def cellsAt : Nat → List Byte → Memory
  | _, [] => []
  | a, b :: rest => if b = 0 then cellsAt (a + 1) rest else (a, b) :: cellsAt (a + 1) rest

/-- PROG_BASE, where the image goes and where execution starts (`00_scope.md` R7). -/
def progBase : Nat := 512

/-- The memory after a successful LOAD (`20_memory.md` R53): FONT from 0, the image from 512, zero elsewhere. -/
def loadedMemory (cfg : Config) (image : List Byte) : Memory :=
  cellsAt 0 cfg.font.toList ++ cellsAt progBase image

/-- The state after a successful LOAD (`70_reset_and_hazards.md` R254): everything zero but the font, the image
and `pc = 512`. The model's own fields are no state of the core and are kept. -/
def State.loaded (s : State) (image : List Byte) : State :=
  { State.reset with
    mem := loadedMemory s.cfg image
    pc := BitVec.ofNat 16 progBase
    cfg := s.cfg
    rndPort := s.rndPort
    draws := s.draws }

/-- What LOAD returns (`70_reset_and_hazards.md` R251). -/
inductive LoadResult where
  | success
  | failure
  deriving DecidableEq, Repr

/-- LOAD (`70_reset_and_hazards.md` R252 to R254); `none` is the image `absent`. A failed LOAD changes nothing. -/
def load (image : Option (List Byte)) (s : State) : State × LoadResult :=
  if imageFits image then (s.loaded (image.getD []), .success) else (s, .failure)

/-! ### TICK (`60_exceptions.md` R221) -/

/-- A timer counts down by one and stops at 0. -/
def countDown (b : Byte) : Byte := if b = 0 then 0 else b - 1

/-- TICK: both timers count down; it works in every status (R215). -/
def tick (s : State) : State := (s.setDT (countDown s.dt)).setST (countDown s.st)

/-! ### STEP(rnd) (`40_cycle.md` R90, R95) -/

/-- STEP with the input byte `rnd`: the step, with `rnd` on the port for its duration. -/
def stepRnd (rnd : Byte) (s : State) : Host.Outcome State Fault Refusal :=
  match step (s.setRndPort (some rnd)) with
  | .next t => .next (t.setRndPort s.rndPort)
  | .fault r => .fault r
  | .refused r => .refused r

/-! ### Read-outs -/

/-- What GET_STATUS returns (`10_state.md` R40). -/
inductive Status where
  | faulted (r : FaultRecord)
  | halted
  | running
  deriving DecidableEq, Repr

/-- GET_STATUS (`10_state.md` R40). -/
def getStatus (s : State) : Status :=
  match s.fault with
  | some r => .faulted r
  | none => if s.halted then .halted else .running

/-- SOUND_ACTIVE (`60_exceptions.md` R222). -/
def soundActive (s : State) : Bool := decide (0 < s.st.toNat)

/-! ### The transactions together -/

/-- A transaction of the interface (`10_state.md` R40). -/
inductive Transaction where
  /-- LOAD of an image, or of `absent` (`none`) -/
  | load (image : Option (List Byte))
  | setKey (index : Fin 16) (pressed : Bool)
  | tick
  | step (rnd : Byte)
  | getVideo
  | getSoundTimer
  | soundActive
  | getStatus
  | observe
  deriving DecidableEq, Repr

/-- What a transaction returns to the host. -/
inductive Response where
  | done
  | loadResult (r : LoadResult)
  | video (v : Video)
  | soundTimer (b : Byte)
  | active (b : Bool)
  | status (r : Status)
  | observed (s : State)
  deriving DecidableEq, Repr

/-- One transaction, run to completion (`10_state.md` R40). -/
def transact (t : Transaction) (s : State) : Host.Outcome (State × Response) Fault Refusal :=
  match t with
  | .load image => .next ((load image s).1, .loadResult (load image s).2)
  | .setKey index pressed => .next (s.setKey index pressed, .done)
  | .tick => .next (Sys2Proof.Machine.tick s, .done)
  | .step rnd =>
    match stepRnd rnd s with
    | .next s' => .next (s', .done)
    | .fault r => .fault r
    | .refused r => .refused r
  | .getVideo => .next (s, .video s.video)
  | .getSoundTimer => .next (s, .soundTimer s.st)
  | .soundActive => .next (s, .active (Sys2Proof.Machine.soundActive s))
  | .getStatus => .next (s, .status (Sys2Proof.Machine.getStatus s))
  | .observe => .next (s, .observed s)

/-- Transactions in the order the host issues them (`60_exceptions.md` R216), and the state they leave. -/
def transactAll : List Transaction → State → Host.Outcome State Fault Refusal
  | [], s => .next s
  | t :: rest, s =>
    match transact t s with
    | .next (s', _) => transactAll rest s'
    | .fault r => .fault r
    | .refused r => .refused r

/-- One frame of the host's order (`70_reset_and_hazards.md` R256): the 16 keys, one TICK, a STEP for each byte
of `rnds` (STEPS_PER_FRAME of them), then the read-outs. -/
def hostFrame (keys : Vector Bool 16) (rnds : List Byte) : List Transaction :=
  (List.finRange 16).map (fun k => .setKey k keys[k]) ++ [.tick] ++ rnds.map .step ++ [.getVideo, .getSoundTimer]

end Sys2Proof.Machine
end

