-- ==== Sys2Proof/Safety.lean ====
section
/-! DEFINITION. The terms that claims about the core use: when it runs and when it is quiescent, the invariant of
its states, what an instruction may change, and the words and pixels of the spec's own notation. -/

namespace Sys2Proof.Machine

/-! ### Running and quiescent -/

/-- STEP executes an instruction in this state (`40_cycle.md` R90, R91): no fault recorded, and not halted. -/
def State.Running (s : State) : Prop := s.fault = none ∧ s.pc.toNat + 1 ≤ 4095

/-- Quiescent (`70_reset_and_hazards.md` R263): halted or faulted. -/
def State.Quiescent (s : State) : Prop := 4095 < s.pc.toNat + 1 ∨ s.fault ≠ none

/-! ### The invariant -/

/-- A fault record tells the truth about the state it stands in (`10_state.md` R33, `60_exceptions.md` R211 to
R214): it was raised under the policy `fault`, at the current `pc`, by the word that stands there, with the stack
that causes it. -/
structure RecordPrecise (s : State) (r : FaultRecord) : Prop where
  policy : s.cfg.stackPolicy = .fault
  address : r.faultPc = s.pc
  executed : s.pc.toNat + 1 ≤ 4095
  word : r.word = s.fetchWord
  overflow : r.cause = .stackOverflow → s.sp = 16 ∧ ∃ nnn, r.word = encode (.call nnn)
  underflow : r.cause = .stackUnderflow → s.sp = 0 ∧ r.word = encode .ret

/-- What holds of every state the core can be in: memory in canonical form, `pc` at most 0x10FE
(`40_cycle.md` R96), pushed values at most 4096 (`10_state.md` R34), and a precise fault record. -/
structure State.Inv (s : State) : Prop where
  memory : s.mem.wf = true
  pcRange : s.pc.toNat ≤ 0x10FE
  stackRange : ∀ k : Fin 16, s.stack[k].toNat ≤ 4096
  record : ∀ r, s.fault = some r → RecordPrecise s r

/-! ### Frames -/

/-- The parts of the state. -/
inductive Part where
  | v | i | pc | sp | stack | dt | st | video | keys | mem | fault | cfg | rndPort | draws
  deriving DecidableEq, Repr

/-- The part is the same in both states; memory is compared by the read of each byte. -/
def Part.Same (s t : State) : Part → Prop
  | .v => ∀ r, t.getV r = s.getV r
  | .i => t.i = s.i
  | .pc => t.pc = s.pc
  | .sp => t.sp = s.sp
  | .stack => t.stack = s.stack
  | .dt => t.dt = s.dt
  | .st => t.st = s.st
  | .video => t.video = s.video
  | .keys => t.keys = s.keys
  | .mem => ∀ a, t.memRead a = s.memRead a
  | .fault => t.fault = s.fault
  | .cfg => t.cfg = s.cfg
  | .rndPort => t.rndPort = s.rndPort
  | .draws => t.draws = s.draws

/-- Every part but the listed ones is unchanged from `s` to `t`. -/
def OnlyChanges (parts : List Part) (s t : State) : Prop := ∀ p, p ∉ parts → Part.Same s t p

/-- Every register but the listed ones is unchanged from `s` to `t`. -/
def RegsKept (written : List Reg) (s t : State) : Prop := ∀ r, r ∉ written → t.getV r = s.getV r

/-- Every byte of memory but those at the listed addresses reads as before. -/
def BytesKept (stored : List Nat) (s t : State) : Prop :=
  ∀ a, a < memSize → a ∉ stored → t.memRead a = s.memRead a

/-- The registers an instruction may write (`10_state.md` R22), VF among them where it is written as a flag. -/
def writesRegs : Instr → List Reg
  | .ldByte x _ | .addByte x _ | .ldReg x _ | .orReg x _ | .andReg x _ | .xorReg x _ => [x]
  | .rnd x _ | .ldVxDT x | .ldVxK x => [x]
  | .addReg x _ | .subReg x _ | .subnReg x _ | .shr x _ | .shl x _ => [x, VF]
  | .drw _ _ _ => [VF]
  | .loadRegs x => regsUpTo x
  | .cls | .ret | .jp _ | .call _ | .seByte _ _ | .sneByte _ _ | .seReg _ _ _ | .sneReg _ _ _ => []
  | .ldI _ | .jpV0 _ | .skp _ | .sknp _ | .ldDTVx _ | .ldSTVx _ | .addI _ | .ldF _ | .ldB _ | .storeRegs _ => []

/-- The addresses an instruction stores to (`20_memory.md` R57), each as the instruction computes it. -/
def storesTo (s : State) : Instr → List Nat
  | .ldB _ => [s.effAddr 0, s.effAddr 1, s.effAddr 2]
  | .storeRegs x => (regsUpTo x).map (fun r => s.effAddr r.val)
  | _ => []

/-- The parts an instruction may change beyond the pre-advance (`10_state.md` R26 to R34 and each instruction's
rule). A call and a return may raise a fault; RND counts its draw (the model's own). -/
def mayChange : Instr → List Part
  | .cls => [.video]
  | .ret => [.pc, .sp, .fault]
  | .call _ => [.pc, .sp, .stack, .fault]
  | .jp _ | .jpV0 _ | .seByte _ _ | .sneByte _ _ | .seReg _ _ _ | .sneReg _ _ _ | .skp _ | .sknp _ => [.pc]
  | .ldByte _ _ | .addByte _ _ | .ldReg _ _ | .orReg _ _ | .andReg _ _ | .xorReg _ _ => [.v]
  | .addReg _ _ | .subReg _ _ | .subnReg _ _ | .shr _ _ | .shl _ _ | .ldVxDT _ | .loadRegs _ => [.v]
  | .rnd _ _ => [.v, .draws]
  | .ldVxK _ => [.v, .pc]
  | .ldI _ | .addI _ | .ldF _ => [.i]
  | .drw _ _ _ => [.v, .video]
  | .ldDTVx _ => [.dt]
  | .ldSTVx _ => [.st]
  | .ldB _ | .storeRegs _ => [.mem]

/-! ### The spec's patterns (`00_scope.md` R13) -/

/-- The word of a class digit and `nnn`. -/
def spellA (c : Nat) (nnn : Addr12) : Word := BitVec.ofNat 16 (c * 4096 + nnn.toNat)

/-- The word of a class digit, `x` and `kk`. -/
def spellXK (c : Nat) (x : Reg) (kk : Nat) : Word := BitVec.ofNat 16 (c * 4096 + x.val * 256 + kk)

/-- The word of four digits `c`, `x`, `y`, `n`. -/
def spellXYN (c : Nat) (x : Reg) (y n : Nat) : Word := BitVec.ofNat 16 (c * 4096 + x.val * 256 + y * 16 + n)

/-! ### The pixels under a sprite (`44_display.md` R174, R175) -/

/-- Pixel `(px, py)` lies under a 1 bit of the sprite `DRW Vx, Vy, n` draws: bit `7 - c` of row `r`, at
`((Vx + c) mod 64, (Vy + r) mod 32)`. -/
def SpriteCovers (s : State) (x y : Reg) (n : Nibble) (px : Fin 64) (py : Fin 32) : Prop :=
  ∃ r c : Nat, r < n.toNat ∧ c < 8 ∧ (s.memRead (s.i.toNat + r)).getLsbD (7 - c) = true ∧
    px.val = ((s.getV x).toNat + c) % 64 ∧ py.val = ((s.getV y).toNat + r) % 32

/-! ### Nested calls -/

/-- Calls executed one after the other, each given as the address after the call and its target. -/
def callAll : List (Word × Addr12) → State → Host.Outcome State Fault Refusal
  | [], s => .next s
  | (after, target) :: rest, s =>
    match exec (.call target) (s.setPc after) with
    | .next t => callAll rest t
    | .fault r => .fault r
    | .refused r => .refused r

/-- `k` returns executed one after the other: the addresses they return to, in order, and the state they leave;
`none` if one gives no next state. -/
def returnAll : Nat → State → Option (List Word × State)
  | 0, s => some ([], s)
  | k + 1, s =>
    match exec .ret s with
    | .next t => (returnAll k t).map (fun r => (t.pc :: r.1, r.2))
    | .fault _ => none
    | .refused _ => none

end Sys2Proof.Machine
end

