-- ==== Sys2Proof/Certificates/Slice0/Obligations.lean ====
section
/-! DEFINITION. The statements about the core, for the provers. In every statement about `exec`, `s.pc` is the
instruction's address + 2 (`40_cycle.md` R93). -/

open Sys2Proof Sys2Proof.Machine

/-! ### Encoding (`30_encoding.md`) -/

/-- Decoding the encoding of any instruction, every operand at every value, gives it back (R71, R74); the ignored
fields, which the model keeps (log entry 10), are among them. -/
def Obligations.DecodeOfEncodeIsTheInstruction : Prop :=
  ∀ i : Instr, decode (encode i) = .ok i

/-- Every word that decodes is the encoding of what it decodes to: no bit of it is lost. The fields are those of R71
and R74; that the ignored ones (`y` of the shifts, `n` of the register compares) are kept, so that no bit of them is
lost either, is the model's choice (log entry 10). -/
def Obligations.EncodeOfDecodeIsTheWord : Prop :=
  ∀ (w : Word) (i : Instr), decode w = .ok i → encode i = w

/-- The two-level decoder of R73 agrees with the mask and match table of R74, and no two rows match one word. -/
def Obligations.DecoderAgreesWithTheOpcodeMap : Prop :=
  ∀ w : Word,
    (∀ row ∈ opcodeTable, row.matches w = true → ∃ i, decode w = .ok i ∧ i.row = row) ∧
    (∀ i, decode w = .ok i → i.row ∈ opcodeTable ∧ i.row.matches w = true) ∧
    (∀ r₁ ∈ opcodeTable, ∀ r₂ ∈ opcodeTable, r₁.matches w = true → r₂.matches w = true → r₁ = r₂)

/-- The unrecognized words, class by class, in plain arithmetic (R75's list). -/
def Obligations.UnrecognizedWordsAreTheListedOnes : Prop :=
  ∀ w : Word,
    (decode w = .error .class0 ↔ w.toNat / 4096 = 0 ∧ w.toNat ≠ 0x00E0 ∧ w.toNat ≠ 0x00EE) ∧
    (decode w = .error .class8 ↔ w.toNat / 4096 = 8 ∧ w.toNat % 16 ∈ [8, 9, 10, 11, 12, 13, 15]) ∧
    (decode w = .error .classE ↔ w.toNat / 4096 = 14 ∧ w.toNat % 256 ∉ [0x9E, 0xA1]) ∧
    (decode w = .error .classF ↔
      w.toNat / 4096 = 15 ∧ w.toNat % 256 ∉ [0x07, 0x0A, 0x15, 0x18, 0x1E, 0x29, 0x33, 0x55, 0x65])

/-- A few words spelt out from the patterns of R74, one or more a family. -/
def Obligations.SpelledWordsDecode : Prop :=
  decode 0x00E0 = .ok .cls ∧ decode 0x00EE = .ok .ret ∧ decode 0x220A = .ok (.call 0x20A) ∧
  decode 0x3310 = .ok (.seByte 3 0x10) ∧ decode 0x9127 = .ok (.sneReg 1 2 7) ∧
  decode 0x8AB4 = .ok (.addReg 10 11) ∧ decode 0x8156 = .ok (.shr 1 5) ∧ decode 0xA123 = .ok (.ldI 0x123) ∧
  decode 0xDAB5 = .ok (.drw 10 11 5) ∧ decode 0xE29E = .ok (.skp 2) ∧ decode 0xF30A = .ok (.ldVxK 3) ∧
  decode 0xFC55 = .ok (.storeRegs 12) ∧ decode 0x0123 = .error .class0

/-- The fields R73 says are ignored do not matter: `y` of the shifts, `n` of the register compares. -/
def Obligations.IgnoredFieldsDoNotMatter : Prop :=
  ∀ (x y : Reg) (a b : Nibble) (s : State),
    exec (.shr x a) s = exec (.shr x b) s ∧ exec (.shl x a) s = exec (.shl x b) s ∧
    exec (.seReg x y a) s = exec (.seReg x y b) s ∧ exec (.sneReg x y a) s = exec (.sneReg x y b) s

/-! ### The step (`40_cycle.md`) -/

/-- A running core whose bytes at `pc` and `pc + 1`, the byte at `pc` high, decode to `i` runs `i` with `pc`
advanced by 2 (R92, R93). -/
def Obligations.StepRunsTheDecodedInstruction : Prop :=
  ∀ (s : State) (i : Instr), s.Running →
    decode (BitVec.ofNat 16 ((s.mem.read s.pc.toNat).toNat * 256 + (s.mem.read (s.pc.toNat + 1)).toNat)) = .ok i →
    step s = exec i { s with pc := s.pc + 2 }

/-- STEP executes nothing in two cases: a running core passes over an unrecognized word with `pc + 2` alone, and a
quiescent core (halted, or with a fault recorded: the spec's decision D8) does not change at all. -/
def Obligations.StepWithoutAnInstruction : Prop :=
  ∀ s : State,
    (s.Running → (∀ i, decode s.fetchWord ≠ .ok i) → step s = .next { s with pc := s.pc + 2 }) ∧
    (s.Quiescent → step s = .next s)

/-- No instruction, no step and no transaction stops: each answers a next state, from every state. That an
instruction which raises a fault answers one too, with the fault recorded in it, is the spec's decision D8, read so by
the model (log entry 8). -/
def Obligations.EverythingAnswersANextState : Prop :=
  (∀ (i : Instr) (s : State), ∃ t, exec i s = .next t) ∧ (∀ s : State, ∃ t, step s = .next t) ∧
  (∀ (x : Transaction) (s : State), ∃ t r, transact x s = .next (t, r))

/-- The invariant holds at construction. -/
def Obligations.InvariantAtReset : Prop := State.reset.Inv

/-- Every step keeps the invariant: canonical memory, `pc` at most 0x10FE, pushed values at most 4096, and a fault
record that names the word at `pc` and the stack that caused it. -/
def Obligations.StepKeepsTheInvariant : Prop :=
  ∀ s t : State, s.Inv → step s = .next t → t.Inv

/-- Every transaction of the host, LOAD, SET_KEY, TICK, STEP(rnd) and the read-outs, keeps the invariant. -/
def Obligations.TransactionsKeepTheInvariant : Prop :=
  ∀ (x : Transaction) (s t : State) (r : Response), s.Inv → transact x s = .next (t, r) → t.Inv

/-! ### Memory (`20_memory.md`) -/

/-- A read returns the last byte written to its cell, addresses taken modulo 4096, and a write keeps the
canonical form. -/
def Obligations.ReadReturnsTheLastWrite : Prop :=
  ∀ (s : State) (a k : Nat) (b : Byte), s.mem.wf = true →
    (s.memWrite a b).mem.wf = true ∧
    (s.memWrite a b).memRead k = (if k % 4096 = a % 4096 then b else s.memRead k)

/-- Memories in canonical form that read alike everywhere are equal as data. -/
def Obligations.CanonicalMemoriesThatReadAlikeAreEqual : Prop :=
  ∀ m m' : Memory, m.wf = true → m'.wf = true → (∀ a, m.read a = m'.read a) → m = m'

/-! ### Frames of all instructions, and what no instruction reads -/

/-- An instruction writes only the registers `writesRegs` lists for it (the index of `10_state.md` R22). -/
def Obligations.OnlyTheListedRegistersAreWritten : Prop :=
  ∀ (i : Instr) (s t : State), exec i s = .next t → RegsKept (writesRegs i) s t

/-- An instruction stores only to the addresses it computes (`20_memory.md` R57): every other byte reads as
before, and where it lists none, all of memory does. -/
def Obligations.OnlyTheListedBytesAreStored : Prop :=
  ∀ (i : Instr) (s t : State), s.mem.wf = true → exec i s = .next t → BytesKept (storesTo s i) s t

/-- An instruction changes only the parts `mayChange` lists for it: the screen only by CLS and DRW, the stack
only by CALL, SP by CALL and RET, `I` by three instructions, DT and ST by one each, the keys and the parameters by
none, the fault record only by CALL and RET. -/
def Obligations.OnlyTheListedPartsChange : Prop :=
  ∀ (i : Instr) (s t : State), exec i s = .next t → OnlyChanges (mayChange i) s t

/-- No instruction reads ST (`10_state.md` R28, `40_cycle.md` R97): with another ST every instruction but LD ST, Vx gives the same state with that ST,
and LD ST, Vx gives the same state. -/
def Obligations.NoInstructionReadsTheSoundTimer : Prop :=
  ∀ (i : Instr) (s t : State) (b : Byte), exec i s = .next t →
    exec i { s with st := b } = .next (if ∃ x, i = .ldSTVx x then t else { t with st := b })

/-- Only DRW reads the screen (`40_cycle.md` R97): with another screen every instruction but DRW and CLS gives the same state with that
screen, and CLS gives the same state. -/
def Obligations.OnlyDrawReadsTheScreen : Prop :=
  ∀ (i : Instr) (s t : State) (vid : Video), (∀ x y n, i ≠ .drw x y n) → exec i s = .next t →
    exec i { s with video := vid } = .next (if i = .cls then t else { t with video := vid })

/-- Only RND reads the random byte: every other instruction does the same whatever the STEP's `rnd` is. -/
def Obligations.OnlyRndReadsTheRandomByte : Prop :=
  ∀ (i : Instr) (s t : State) (r : Option Byte), (∀ x kk, i ≠ .rnd x kk) → exec i s = .next t →
    exec i { s with rndPort := r } = .next { t with rndPort := r }

/-- The slots at or above SP are read by no instruction: two states that differ only there stay so. -/
def Obligations.StackSlotsAboveSPAreNeverRead : Prop :=
  ∀ (i : Instr) (s t : State) (other : Vector Word 16),
    (∀ k : Fin 16, k.val < s.sp.val → other[k] = s.stack[k]) → exec i s = .next t →
    ∃ t', exec i { s with stack := other } = .next t' ∧ { t' with stack := t.stack } = t ∧
      ∀ k : Fin 16, k.val < t.sp.val → t'.stack[k] = t.stack[k]

/-! ### Control transfer (`41_control_flow.md`) -/

/-- JP nnn (R101): `pc` becomes `nnn`, and nothing else changes. -/
def Obligations.JumpSetsPc : Prop :=
  ∀ (nnn : Addr12) (s : State), decode (spellA 0x1 nnn) = .ok (.jp nnn) ∧
    ∃ t, exec (.jp nnn) s = .next t ∧ t.pc.toNat = nnn.toNat ∧ OnlyChanges [.pc] s t

/-- JP V0, nnn: `pc` becomes the sum of `V0` and `nnn`, not reduced modulo 4096 (the spec's decision D5). -/
def Obligations.JumpWithOffsetAddsV0 : Prop :=
  ∀ (nnn : Addr12) (s : State), decode (spellA 0xB nnn) = .ok (.jpV0 nnn) ∧
    ∃ t, exec (.jpV0 nnn) s = .next t ∧ t.pc.toNat = (s.getV 0).toNat + nnn.toNat ∧ OnlyChanges [.pc] s t

/-- The four compare-and-skip instructions (R103 to R106): `pc` moves on by 2 exactly when the condition holds,
for every value of an ignored `n`, and nothing else changes. -/
def Obligations.CompareAndSkip : Prop :=
  ∀ (x y : Reg) (kk : Byte) (n : Nibble) (s : State),
    (decode (spellXK 0x3 x kk.toNat) = .ok (.seByte x kk) ∧ ∃ t, exec (.seByte x kk) s = .next t ∧
      t.pc = (if (s.getV x).toNat = kk.toNat then s.pc + 2 else s.pc) ∧ OnlyChanges [.pc] s t) ∧
    (decode (spellXK 0x4 x kk.toNat) = .ok (.sneByte x kk) ∧ ∃ t, exec (.sneByte x kk) s = .next t ∧
      t.pc = (if (s.getV x).toNat ≠ kk.toNat then s.pc + 2 else s.pc) ∧ OnlyChanges [.pc] s t) ∧
    (decode (spellXYN 0x5 x y.val n.toNat) = .ok (.seReg x y n) ∧ ∃ t, exec (.seReg x y n) s = .next t ∧
      t.pc = (if (s.getV x).toNat = (s.getV y).toNat then s.pc + 2 else s.pc) ∧ OnlyChanges [.pc] s t) ∧
    (decode (spellXYN 0x9 x y.val n.toNat) = .ok (.sneReg x y n) ∧ ∃ t, exec (.sneReg x y n) s = .next t ∧
      t.pc = (if (s.getV x).toNat ≠ (s.getV y).toNat then s.pc + 2 else s.pc) ∧ OnlyChanges [.pc] s t)

/-- CALL nnn with a free slot: the slot at SP takes the address after the call, SP grows by one, `pc` becomes
`nnn`. -/
def Obligations.CallPushesAndJumps : Prop :=
  ∀ (nnn : Addr12) (s : State) (k : Fin 16), s.sp.val = k.val →
    decode (spellA 0x2 nnn) = .ok (.call nnn) ∧
    ∃ t, exec (.call nnn) s = .next t ∧ t.stack[k] = s.pc ∧ (∀ j : Fin 16, j ≠ k → t.stack[j] = s.stack[j]) ∧
      t.sp.val = k.val + 1 ∧ t.pc.toNat = nnn.toNat ∧ OnlyChanges [.stack, .sp, .pc] s t

/-- CALL nnn on a full stack (the spec's decisions D6, D7, D8): under `fault` the record
`(StackOverflow, pc0, w)` is made, `pc` returns to `pc0` and nothing else changes; under `ignore` only the jump is
taken. -/
def Obligations.CallOnAFullStack : Prop :=
  ∀ (nnn : Addr12) (s : State), s.sp = 16 →
    ∃ t, exec (.call nnn) s = .next t ∧
      (s.cfg.stackPolicy = .fault →
        t.fault = some ⟨.stackOverflow, s.pc - 2, spellA 0x2 nnn⟩ ∧ t.pc = s.pc - 2 ∧ OnlyChanges [.fault, .pc] s t) ∧
      (s.cfg.stackPolicy = .ignore → t.pc.toNat = nnn.toNat ∧ OnlyChanges [.pc] s t)

/-- RET with a non-empty stack: SP shrinks by one, and `pc` becomes the word in the slot there, which keeps it. -/
def Obligations.ReturnPopsIntoPc : Prop :=
  ∀ (s : State) (k : Fin 16), s.sp.val = k.val + 1 →
    decode 0x00EE = .ok .ret ∧
    ∃ t, exec .ret s = .next t ∧ t.pc = s.stack[k] ∧ t.sp.val = k.val ∧ OnlyChanges [.sp, .pc] s t

/-- RET on an empty stack (the spec's decisions D6, D7, D8): under `fault` the record
`(StackUnderflow, pc0, 0x00EE)` is made, `pc` returns to `pc0` and nothing else changes; under `ignore` nothing
changes. -/
def Obligations.ReturnOnAnEmptyStack : Prop :=
  ∀ s : State, s.sp = 0 →
    ∃ t, exec .ret s = .next t ∧
      (s.cfg.stackPolicy = .fault →
        t.fault = some ⟨.stackUnderflow, s.pc - 2, 0x00EE⟩ ∧ t.pc = s.pc - 2 ∧ OnlyChanges [.fault, .pc] s t) ∧
      (s.cfg.stackPolicy = .ignore → t = s)

/-- Nested calls return in reverse order: any calls that fit on the stack, then as many returns, come back to the
address after each call, the last call first, with SP as it was ("for stack depths 1 through 16"). -/
def Obligations.NestedCallsReturnInReverseOrder : Prop :=
  ∀ (calls : List (Word × Addr12)) (s : State), s.sp.val + calls.length ≤ 16 →
    ∃ t u, callAll calls s = .next t ∧ t.sp.val = s.sp.val + calls.length ∧
      returnAll calls.length t = some ((calls.map Prod.fst).reverse, u) ∧ u.sp = s.sp ∧
      OnlyChanges [.pc, .stack] s u

/-! ### Loads and the ALU (`42_alu.md`) -/

/-- LD Vx, kk (R120), ADD Vx, kk (R121) and LD Vx, Vy (R122): the register's new value, every other register kept
(VF too, unless it is `Vx`), and nothing else changed. -/
def Obligations.LoadByteAddByteAndCopy : Prop :=
  ∀ (x y : Reg) (kk : Byte) (s : State),
    (decode (spellXK 0x6 x kk.toNat) = .ok (.ldByte x kk) ∧ ∃ t, exec (.ldByte x kk) s = .next t ∧
      t.getV x = kk ∧ RegsKept [x] s t ∧ OnlyChanges [.v] s t) ∧
    (decode (spellXK 0x7 x kk.toNat) = .ok (.addByte x kk) ∧ ∃ t, exec (.addByte x kk) s = .next t ∧
      (t.getV x).toNat = ((s.getV x).toNat + kk.toNat) % 256 ∧ RegsKept [x] s t ∧ OnlyChanges [.v] s t) ∧
    (decode (spellXYN 0x8 x y.val 0) = .ok (.ldReg x y) ∧ ∃ t, exec (.ldReg x y) s = .next t ∧
      t.getV x = s.getV y ∧ RegsKept [x] s t ∧ OnlyChanges [.v] s t)

/-- OR, AND and XOR, bit by bit; VF is kept unless it is `Vx` (the spec's decision D11). -/
def Obligations.LogicIsBitwiseAndSetsNoFlag : Prop :=
  ∀ (x y : Reg) (s : State),
    (decode (spellXYN 0x8 x y.val 1) = .ok (.orReg x y) ∧ ∃ t, exec (.orReg x y) s = .next t ∧
      (∀ k < 8, (t.getV x).getLsbD k = ((s.getV x).getLsbD k || (s.getV y).getLsbD k)) ∧
      RegsKept [x] s t ∧ OnlyChanges [.v] s t) ∧
    (decode (spellXYN 0x8 x y.val 2) = .ok (.andReg x y) ∧ ∃ t, exec (.andReg x y) s = .next t ∧
      (∀ k < 8, (t.getV x).getLsbD k = ((s.getV x).getLsbD k && (s.getV y).getLsbD k)) ∧
      RegsKept [x] s t ∧ OnlyChanges [.v] s t) ∧
    (decode (spellXYN 0x8 x y.val 3) = .ok (.xorReg x y) ∧ ∃ t, exec (.xorReg x y) s = .next t ∧
      (∀ k < 8, (t.getV x).getLsbD k = ((s.getV x).getLsbD k != (s.getV y).getLsbD k)) ∧
      RegsKept [x] s t ∧ OnlyChanges [.v] s t)

/-- ADD Vx, Vy (R126): the sum modulo 256 and the carry; where `x` is VF the carry is what stays. -/
def Obligations.AddRegistersSetsCarry : Prop :=
  ∀ (x y : Reg) (s : State), decode (spellXYN 0x8 x y.val 4) = .ok (.addReg x y) ∧
    ∃ t, exec (.addReg x y) s = .next t ∧
      (x ≠ VF → (t.getV x).toNat = ((s.getV x).toNat + (s.getV y).toNat) % 256) ∧
      (t.getV VF).toNat = (if (s.getV x).toNat + (s.getV y).toNat > 255 then 1 else 0) ∧
      RegsKept [x, VF] s t ∧ OnlyChanges [.v] s t

/-- SUB and SUBN: with no field naming VF, the difference modulo 256 and NOT-borrow; with a field naming VF, the
flag is written first and the difference reads it (the spec's decision D9). -/
def Obligations.SubtractSetsNotBorrow : Prop :=
  ∀ (x y : Reg) (s : State),
    (decode (spellXYN 0x8 x y.val 5) = .ok (.subReg x y) ∧ ∃ t, exec (.subReg x y) s = .next t ∧
      RegsKept [x, VF] s t ∧ OnlyChanges [.v] s t ∧
      ∀ flag : Nat, flag = (if (s.getV x).toNat ≥ (s.getV y).toNat then 1 else 0) →
        (x ≠ VF → (t.getV VF).toNat = flag) ∧
        (x ≠ VF → y ≠ VF → (t.getV x).toNat = (256 + (s.getV x).toNat - (s.getV y).toNat) % 256) ∧
        (x ≠ VF → y = VF → (t.getV x).toNat = (256 + (s.getV x).toNat - flag) % 256) ∧
        (x = VF → y ≠ VF → (t.getV VF).toNat = (256 + flag - (s.getV y).toNat) % 256) ∧
        (x = VF → y = VF → (t.getV VF).toNat = 0)) ∧
    (decode (spellXYN 0x8 x y.val 7) = .ok (.subnReg x y) ∧ ∃ t, exec (.subnReg x y) s = .next t ∧
      RegsKept [x, VF] s t ∧ OnlyChanges [.v] s t ∧
      ∀ flag : Nat, flag = (if (s.getV y).toNat ≥ (s.getV x).toNat then 1 else 0) →
        (x ≠ VF → (t.getV VF).toNat = flag) ∧
        (x ≠ VF → y ≠ VF → (t.getV x).toNat = (256 + (s.getV y).toNat - (s.getV x).toNat) % 256) ∧
        (x ≠ VF → y = VF → (t.getV x).toNat = (256 + flag - (s.getV x).toNat) % 256) ∧
        (x = VF → y ≠ VF → (t.getV VF).toNat = (256 + (s.getV y).toNat - flag) % 256) ∧
        (x = VF → y = VF → (t.getV VF).toNat = 0))

/-- SHR and SHL, for every value of the ignored `y`: the shifted register and the bit moved out; where `x` is VF
the flag written first is what is shifted (the spec's decision D9). -/
def Obligations.ShiftsSetTheBitMovedOut : Prop :=
  ∀ (x : Reg) (y : Nibble) (s : State),
    (decode (spellXYN 0x8 x y.toNat 6) = .ok (.shr x y) ∧ ∃ t, exec (.shr x y) s = .next t ∧
      (x ≠ VF → (t.getV x).toNat = (s.getV x).toNat / 2 ∧ (t.getV VF).toNat = (s.getV x).toNat % 2) ∧
      (x = VF → (t.getV VF).toNat = 0) ∧ RegsKept [x, VF] s t ∧ OnlyChanges [.v] s t) ∧
    (decode (spellXYN 0x8 x y.toNat 14) = .ok (.shl x y) ∧ ∃ t, exec (.shl x y) s = .next t ∧
      (x ≠ VF → (t.getV x).toNat = (s.getV x).toNat * 2 % 256 ∧ (t.getV VF).toNat = (s.getV x).toNat / 128) ∧
      (x = VF → (t.getV VF).toNat = (s.getV x).toNat / 128 * 2) ∧ RegsKept [x, VF] s t ∧ OnlyChanges [.v] s t)

/-- RND Vx, kk: the register takes the STEP's `rnd` under the mask, whatever byte it is; and every byte whose set
bits are a subset of `kk`'s is the result of some `rnd` (the spec's decision D13). With no `rnd` given the byte is
a free value, of which this says only that it is masked. -/
def Obligations.RandomByteUnderAMask : Prop :=
  ∀ (x : Reg) (kk : Byte) (s : State), decode (spellXK 0xC x kk.toNat) = .ok (.rnd x kk) ∧
    (∃ t, exec (.rnd x kk) s = .next t ∧ (∀ k, kk.getLsbD k = false → (t.getV x).getLsbD k = false) ∧
      (∀ r, s.rndPort = some r → ∀ k, (t.getV x).getLsbD k = (r.getLsbD k && kk.getLsbD k)) ∧
      RegsKept [x] s t ∧ OnlyChanges [.v, .draws] s t) ∧
    (∀ b : Byte, (∀ k, b.getLsbD k = true → kk.getLsbD k = true) →
      ∃ r t, exec (.rnd x kk) { s with rndPort := some r } = .next t ∧ t.getV x = b)

/-! ### Index register and memory transfers (`43_index_memory.md`) -/

/-- LD I, nnn (R150) and LD F, Vx (R152): `I` becomes `nnn`, or five times the whole of `Vx`. -/
def Obligations.LoadIndexAndGlyphAddress : Prop :=
  ∀ (nnn : Addr12) (x : Reg) (s : State),
    (decode (spellA 0xA nnn) = .ok (.ldI nnn) ∧ ∃ t, exec (.ldI nnn) s = .next t ∧
      t.i.toNat = nnn.toNat ∧ OnlyChanges [.i] s t) ∧
    (decode (spellXK 0xF x 0x29) = .ok (.ldF x) ∧ ∃ t, exec (.ldF x) s = .next t ∧
      t.i.toNat = (s.getV x).toNat * 5 ∧ OnlyChanges [.i] s t)

/-- ADD I, Vx: a 16-bit wrapping add that sets no flag (the spec's decision D11). -/
def Obligations.AddToIndexWrapsAt16Bits : Prop :=
  ∀ (x : Reg) (s : State), decode (spellXK 0xF x 0x1E) = .ok (.addI x) ∧
    ∃ t, exec (.addI x) s = .next t ∧ t.i.toNat = (s.i.toNat + (s.getV x).toNat) % 65536 ∧ OnlyChanges [.i] s t

/-- LD B, Vx (R153): the decimal digits go to the three cells from `I` on, modulo 4096; every other byte reads as
before, and nothing else changes. -/
def Obligations.DecimalDigitsAreStored : Prop :=
  ∀ (x : Reg) (s : State), s.mem.wf = true → decode (spellXK 0xF x 0x33) = .ok (.ldB x) ∧
    ∃ t, exec (.ldB x) s = .next t ∧
      (t.memRead (s.effAddr 0)).toNat = (s.getV x).toNat / 100 ∧
      (t.memRead (s.effAddr 1)).toNat = (s.getV x).toNat / 10 % 10 ∧
      (t.memRead (s.effAddr 2)).toNat = (s.getV x).toNat % 10 ∧
      (s.effAddr 0 = s.i.toNat % 4096 ∧ s.effAddr 1 = (s.i.toNat + 1) % 4096 ∧ s.effAddr 2 = (s.i.toNat + 2) % 4096) ∧
      BytesKept [s.effAddr 0, s.effAddr 1, s.effAddr 2] s t ∧ OnlyChanges [.mem] s t

/-- LD [I], Vx: register `r`, for `r` from 0 to `x`, goes to the cell `(I + r) mod 4096`; every other byte reads as
before, and `I` and the rest are unchanged (the spec's decision D11). -/
def Obligations.RegistersAreStored : Prop :=
  ∀ (x : Reg) (s : State), s.mem.wf = true → decode (spellXK 0xF x 0x55) = .ok (.storeRegs x) ∧
    ∃ t, exec (.storeRegs x) s = .next t ∧
      (∀ r : Reg, r ≤ x → t.memRead (s.effAddr r.val) = s.getV r ∧ s.effAddr r.val = (s.i.toNat + r.val) % 4096) ∧
      BytesKept ((regsUpTo x).map (fun r => s.effAddr r.val)) s t ∧ OnlyChanges [.mem] s t

/-- LD Vx, [I]: register `r`, for `r` from 0 to `x`, takes the byte at `(I + r) mod 4096`; the registers above `x`,
`I` and the rest are unchanged (the spec's decision D11). -/
def Obligations.RegistersAreLoaded : Prop :=
  ∀ (x : Reg) (s : State), decode (spellXK 0xF x 0x65) = .ok (.loadRegs x) ∧
    ∃ t, exec (.loadRegs x) s = .next t ∧
      (∀ r : Reg, r ≤ x → t.getV r = s.memRead ((s.i.toNat + r.val) % 4096)) ∧
      RegsKept (regsUpTo x) s t ∧ OnlyChanges [.v] s t

/-- Registers stored and loaded again come back, whatever was in the registers in between. That the load reads the
cells of the store needs `I` unchanged by the store: the spec's decision D11 (log entry 15). -/
def Obligations.StoredRegistersAreLoadedBack : Prop :=
  ∀ (x : Reg) (s t : State) (between : Vector Byte 16), s.mem.wf = true → exec (.storeRegs x) s = .next t →
    ∃ u, exec (.loadRegs x) { t with v := between } = .next u ∧ ∀ r : Reg, r ≤ x → u.getV r = s.getV r

/-! ### Display (`44_display.md`) -/

/-- CLS (R171): every pixel becomes 0, VF and everything else are unchanged. -/
def Obligations.ClearScreen : Prop :=
  ∀ s : State, decode 0x00E0 = .ok .cls ∧
    ∃ t, exec .cls s = .next t ∧ (∀ k : Fin 2048, t.video.index k = false) ∧ OnlyChanges [.video] s t

/-- DRW Vx, Vy, n: exactly the pixels under the sprite's 1 bits flip, each wrapped to the screen on its own, and VF
ends 1 if one of them was set and 0 otherwise. Where a coordinate register is VF, its value before the instruction
counts (the spec's decision D10). -/
def Obligations.DrawFlipsTheSpritePixels : Prop :=
  ∀ (x y : Reg) (n : Nibble) (s : State), decode (spellXYN 0xD x y.val n.toNat) = .ok (.drw x y n) ∧
    ∃ t, exec (.drw x y n) s = .next t ∧
      (∀ px py, SpriteCovers s x y n px py → t.video.pixel px py = !s.video.pixel px py) ∧
      (∀ px py, ¬ SpriteCovers s x y n px py → t.video.pixel px py = s.video.pixel px py) ∧
      ((∃ px py, SpriteCovers s x y n px py ∧ s.video.pixel px py = true) → t.getV VF = 1) ∧
      ((∀ px py, SpriteCovers s x y n px py → s.video.pixel px py = false) → t.getV VF = 0) ∧
      RegsKept [VF] s t ∧ OnlyChanges [.v, .video] s t

/-- The same sprite drawn twice at the same place restores the screen, and the second draw sets VF exactly if the
first turned a pixel from 0 to 1 (the spec's inference R177 (b), (c)). The premise on the coordinates says that
neither is VF with a value that the first draw changed. -/
def Obligations.DrawingTwiceRestoresTheScreen : Prop :=
  ∀ (x y : Reg) (n : Nibble) (s t : State), exec (.drw x y n) s = .next t →
    t.getV x = s.getV x → t.getV y = s.getV y →
    ∃ u, exec (.drw x y n) t = .next u ∧ u.video = s.video ∧
      (u.getV VF = 1 ↔ ∃ px py, s.video.pixel px py = false ∧ t.video.pixel px py = true) ∧
      (u.getV VF = 0 ∨ u.getV VF = 1)

/-- On a blank screen a draw sets VF = 0, and a sprite of no rows leaves any screen as it is with VF = 0 (the
spec's inference R177 (d), and R175). -/
def Obligations.DrawWithoutCollision : Prop :=
  ∀ (x y : Reg) (n : Nibble) (s t : State), exec (.drw x y n) s = .next t →
    (s.video = Video.clear → t.getV VF = 0) ∧ (n = 0 → t.video = s.video ∧ t.getV VF = 0)

/-! ### Keys and timers (`45_input_timers.md`) -/

/-- SKP and SKNP: the key named by the low four bits of `Vx` decides the skip (the spec's decision D12). -/
def Obligations.SkipOnKey : Prop :=
  ∀ (x : Reg) (k : Fin 16) (s : State), k.val = (s.getV x).toNat % 16 →
    (decode (spellXK 0xE x 0x9E) = .ok (.skp x) ∧ ∃ t, exec (.skp x) s = .next t ∧
      t.pc = (if s.getKey k = true then s.pc + 2 else s.pc) ∧ OnlyChanges [.pc] s t) ∧
    (decode (spellXK 0xE x 0xA1) = .ok (.sknp x) ∧ ∃ t, exec (.sknp x) s = .next t ∧
      t.pc = (if s.getKey k = false then s.pc + 2 else s.pc) ∧ OnlyChanges [.pc] s t)

/-- LD Vx, DT (R192), LD DT, Vx (R194) and LD ST, Vx (R195). -/
def Obligations.TimerMoves : Prop :=
  ∀ (x : Reg) (s : State),
    (decode (spellXK 0xF x 0x07) = .ok (.ldVxDT x) ∧ ∃ t, exec (.ldVxDT x) s = .next t ∧
      t.getV x = s.dt ∧ RegsKept [x] s t ∧ OnlyChanges [.v] s t) ∧
    (decode (spellXK 0xF x 0x15) = .ok (.ldDTVx x) ∧ ∃ t, exec (.ldDTVx x) s = .next t ∧
      t.dt = s.getV x ∧ OnlyChanges [.dt] s t) ∧
    (decode (spellXK 0xF x 0x18) = .ok (.ldSTVx x) ∧ ∃ t, exec (.ldSTVx x) s = .next t ∧
      t.st = s.getV x ∧ OnlyChanges [.st] s t)

/-- LD Vx, K (R193): with a key down, `Vx` takes the number of the lowest one; with none down, `pc` goes back to
the instruction itself and nothing else changes, so a STEP that fetches it leaves the whole state as it was. -/
def Obligations.WaitForTheLowestKey : Prop :=
  ∀ (x : Reg) (s : State), decode (spellXK 0xF x 0x0A) = .ok (.ldVxK x) ∧
    (∀ k : Fin 16, s.getKey k = true → (∀ j < k, s.getKey j = false) →
      ∃ t, exec (.ldVxK x) s = .next t ∧ (t.getV x).toNat = k.val ∧ RegsKept [x] s t ∧ OnlyChanges [.v] s t) ∧
    ((∀ k : Fin 16, s.getKey k = false) →
      ∃ t, exec (.ldVxK x) s = .next t ∧ t.pc = s.pc - 2 ∧ OnlyChanges [.pc] s t) ∧
    (s.Running → decode s.fetchWord = .ok (.ldVxK x) → (∀ k : Fin 16, s.getKey k = false) → step s = .next s)

/-! ### Faults (`60_exceptions.md`) -/

/-- Only a call on a full stack and a return on an empty one raise a fault, and only under the policy `fault`
(the spec's inference R216). -/
def Obligations.OnlyCallAndReturnRaise : Prop :=
  ∀ (i : Instr) (s t : State) (r : FaultRecord), exec i s = .next t → s.fault = none → t.fault = some r →
    s.cfg.stackPolicy = .fault ∧
    ((r.cause = .stackOverflow ∧ s.sp = 16 ∧ ∃ nnn, i = .call nnn) ∨
     (r.cause = .stackUnderflow ∧ s.sp = 0 ∧ i = .ret))

/-- A recorded fault stays, whatever transactions the host issues, until a LOAD that succeeds; and such a LOAD
clears it (the spec's decision D8). -/
def Obligations.OnlyASuccessfulLoadClearsAFault : Prop :=
  ∀ (x : Transaction) (s t : State) (r : FaultRecord) (a : Response), s.fault = some r →
    transact x s = .next (t, a) → (a ≠ .loadResult .success → t.fault = some r) ∧
      (a = .loadResult .success → t.fault = none)

/-! ### Transactions (`10_state.md` R40) -/

/-- TICK any number of times, in whatever status the core is (the spec's decision D21): both timers go down by one
a TICK and stop at 0, and nothing else changes. -/
def Obligations.TicksCountDownToZero : Prop :=
  ∀ (k : Nat) (s : State), ∃ t, transactAll (List.replicate k .tick) s = .next t ∧
    t.dt.toNat = s.dt.toNat - k ∧ t.st.toNat = s.st.toNat - k ∧ OnlyChanges [.dt, .st] s t

/-- SET_KEY (R223) sets its key and nothing else; no instruction writes the keys, and no transaction does but
SET_KEY and a LOAD that succeeds (which writes them all: the spec's decision D16; that a LOAD that fails writes
nothing is its decision D15). -/
def Obligations.OnlySetKeyAndLoadWriteTheKeys : Prop :=
  (∀ (k : Fin 16) (pressed : Bool) (s : State), ∃ t r, transact (.setKey k pressed) s = .next (t, r) ∧
    t.getKey k = pressed ∧ (∀ j, j ≠ k → t.getKey j = s.getKey j) ∧ OnlyChanges [.keys] s t) ∧
  (∀ (i : Instr) (s t : State), exec i s = .next t → t.keys = s.keys) ∧
  (∀ (x : Transaction) (s t : State) (r : Response), (∀ k pressed, x ≠ .setKey k pressed) →
    r ≠ .loadResult .success → transact x s = .next (t, r) → t.keys = s.keys)

/-- A successful LOAD (R254; the zeros are the spec's decision D16): FONT at 0 to 79, the image from 512, every
other byte, register, timer, pixel, key and slot 0, no fault, `pc = 512`, whatever the state was. -/
def Obligations.LoadInstallsTheProgram : Prop :=
  ∀ (image : List Byte) (s : State), image.length ≤ 3584 →
    ∃ t, transact (.load (some image)) s = .next (t, .loadResult .success) ∧
      (∀ a < 80, t.memRead a = s.cfg.font.toList.getD a 0) ∧
      (∀ a, 80 ≤ a → a < 512 → t.memRead a = 0) ∧
      (∀ j, 512 + j < 4096 → t.memRead (512 + j) = image.getD j 0) ∧
      (∀ r, t.getV r = 0) ∧ t.i = 0 ∧ t.pc = 512 ∧ t.sp = 0 ∧ (∀ k : Fin 16, t.stack[k] = 0) ∧ t.dt = 0 ∧ t.st = 0 ∧
      (∀ px py, t.video.pixel px py = false) ∧ (∀ k, t.getKey k = false) ∧ t.fault = none ∧ t.mem.wf = true

/-- LOAD of no image, or of one longer than 3584 bytes, fails and changes nothing (R252; unmodified is the spec's
decision D15). -/
def Obligations.FailedLoadChangesNothing : Prop :=
  ∀ s : State, transact (.load none) s = .next (s, .loadResult .failure) ∧
    ∀ image : List Byte, 3584 < image.length → transact (.load (some image)) s = .next (s, .loadResult .failure)

/-- The step of the model is STEP(rnd) of the interface for some `rnd`: leaving the byte free claims nothing that no
real `rnd` would give (the spec's decision D13). -/
def Obligations.StepIsStepWithSomeRandomByte : Prop :=
  ∀ s t : State, s.rndPort = none → step s = .next t → ∃ rnd, transact (.step rnd) s = .next (t, .done)

/-- The read-outs return what they name and change nothing: the sound timer, the sound output (active exactly when
ST > 0: R222), the screen, the whole state, and the status (the fault record if there is one, else whether
`pc + 1 > 4095`). -/
def Obligations.ReadOutsReturnTheStateAndChangeNothing : Prop :=
  ∀ s : State,
    transact .getSoundTimer s = .next (s, .soundTimer s.st) ∧
    (∃ b, transact .soundActive s = .next (s, .active b) ∧ (b = true ↔ s.st.toNat > 0)) ∧
    transact .getVideo s = .next (s, .video s.video) ∧ transact .observe s = .next (s, .observed s) ∧
    (∃ r, transact .getStatus s = .next (s, .status r) ∧
      (∀ f, r = .faulted f ↔ s.fault = some f) ∧ (r = .halted ↔ s.fault = none ∧ s.pc.toNat + 1 > 4095) ∧
      (r = .running ↔ s.Running))

/-- One frame of the host's order (the spec's decision D2): from any state it runs to its end, the keys are then the
frame's keys, so every STEP of the frame saw those, and the parameters are unchanged. -/
def Obligations.FrameSetsTheKeysForAllItsSteps : Prop :=
  ∀ (keys : Vector Bool 16) (rnds : List Byte) (s : State),
    ∃ t u, transactAll ((List.finRange 16).map (fun k => .setKey k keys[k])) s = .next t ∧
      t = { s with keys := keys } ∧ transactAll (hostFrame keys rnds) s = .next u ∧ u.keys = keys ∧ u.cfg = s.cfg

/-! ### Construction (`10_state.md` R41, `70_reset_and_hazards.md` R250) -/

/-- The state at construction (R41, construction column): all zero, keys up, screen clear, no fault. -/
def Obligations.ConstructionIsAllZero : Prop :=
  (∀ r, State.reset.getV r = 0) ∧ State.reset.i = 0 ∧ State.reset.pc = 0 ∧ State.reset.sp = 0 ∧
  (∀ k : Fin 16, State.reset.stack[k] = 0) ∧ State.reset.dt = 0 ∧ State.reset.st = 0 ∧
  (∀ px py, State.reset.video.pixel px py = false) ∧ (∀ k, State.reset.getKey k = false) ∧
  (∀ a, State.reset.memRead a = 0) ∧ State.reset.fault = none

/-- Without a LOAD the core runs zero memory (the spec's decision D17): `k` STEPs, for `k` up to 2048, move `pc` to
`2 k` and change nothing else, and after 2048 the core is halted for good. -/
def Obligations.UnloadedCoreRunsZeroMemoryThenHalts : Prop :=
  (∀ k, k ≤ 2048 → core.run k State.reset = .next { State.reset with pc := BitVec.ofNat 16 (2 * k) }) ∧
  (∀ k, core.run (2048 + k) State.reset = .next { State.reset with pc := 4096 })

/-! ### STEP(rnd) and its byte (`40_cycle.md` R90, R95) -/

/-- STEP(rnd) is the step with the byte it is given, whatever byte that is: the step from the state with `rnd` on the
port, the port (the model's own field, log entry 3) then as it was. So RND in a STEP(rnd) of a running core gives
`rnd` under the mask, with `pc` advanced by 2 and nothing else changed (R131; the byte as an input of the STEP is the
spec's decision D13). -/
def Obligations.StepTransactionUsesTheGivenByte : Prop :=
  (∀ (s t : State) (rnd : Byte), step { s with rndPort := some rnd } = .next t →
    transact (.step rnd) s = .next ({ t with rndPort := s.rndPort }, .done)) ∧
  (∀ (x : Reg) (kk rnd : Byte) (s : State), s.Running → decode s.fetchWord = .ok (.rnd x kk) →
    ∃ t, transact (.step rnd) s = .next (t, .done) ∧
      (∀ k, (t.getV x).getLsbD k = (rnd.getLsbD k && kk.getLsbD k)) ∧ t.pc = s.pc + 2 ∧
      RegsKept [x] s t ∧ OnlyChanges [.v, .pc, .draws] s t)
end

