-- ==== Sys2Proof/Laws/State.lean ====
section
/-! SUPPORT. One lemma per field per update of the state, all by rfl, and the reads that an update leaves alone. -/

namespace Sys2Proof.Machine

variable (s : State)

/-! ### setV -/

@[simp] theorem setV_v (x : Reg) (b : Byte) : (s.setV x b).v = s.v.set x.val b x.isLt := rfl
@[simp] theorem setV_i (x : Reg) (b : Byte) : (s.setV x b).i = s.i := rfl
@[simp] theorem setV_pc (x : Reg) (b : Byte) : (s.setV x b).pc = s.pc := rfl
@[simp] theorem setV_sp (x : Reg) (b : Byte) : (s.setV x b).sp = s.sp := rfl
@[simp] theorem setV_stack (x : Reg) (b : Byte) : (s.setV x b).stack = s.stack := rfl
@[simp] theorem setV_dt (x : Reg) (b : Byte) : (s.setV x b).dt = s.dt := rfl
@[simp] theorem setV_st (x : Reg) (b : Byte) : (s.setV x b).st = s.st := rfl
@[simp] theorem setV_video (x : Reg) (b : Byte) : (s.setV x b).video = s.video := rfl
@[simp] theorem setV_keys (x : Reg) (b : Byte) : (s.setV x b).keys = s.keys := rfl
@[simp] theorem setV_mem (x : Reg) (b : Byte) : (s.setV x b).mem = s.mem := rfl
@[simp] theorem setV_fault (x : Reg) (b : Byte) : (s.setV x b).fault = s.fault := rfl
@[simp] theorem setV_cfg (x : Reg) (b : Byte) : (s.setV x b).cfg = s.cfg := rfl
@[simp] theorem setV_rndPort (x : Reg) (b : Byte) : (s.setV x b).rndPort = s.rndPort := rfl
@[simp] theorem setV_draws (x : Reg) (b : Byte) : (s.setV x b).draws = s.draws := rfl
@[simp] theorem setV_memRead (x : Reg) (b : Byte) (ad : Nat) : (s.setV x b).memRead ad = s.memRead ad := rfl
@[simp] theorem setV_indexed (x : Reg) (b : Byte) (off : Nat) : (s.setV x b).indexed off = s.indexed off := rfl
@[simp] theorem setV_getKey (x : Reg) (b : Byte) (j : Fin 16) : (s.setV x b).getKey j = s.getKey j := rfl

/-! ### setI -/

@[simp] theorem setI_v (w : Word) : (s.setI w).v = s.v := rfl
@[simp] theorem setI_i (w : Word) : (s.setI w).i = w := rfl
@[simp] theorem setI_pc (w : Word) : (s.setI w).pc = s.pc := rfl
@[simp] theorem setI_sp (w : Word) : (s.setI w).sp = s.sp := rfl
@[simp] theorem setI_stack (w : Word) : (s.setI w).stack = s.stack := rfl
@[simp] theorem setI_dt (w : Word) : (s.setI w).dt = s.dt := rfl
@[simp] theorem setI_st (w : Word) : (s.setI w).st = s.st := rfl
@[simp] theorem setI_video (w : Word) : (s.setI w).video = s.video := rfl
@[simp] theorem setI_keys (w : Word) : (s.setI w).keys = s.keys := rfl
@[simp] theorem setI_mem (w : Word) : (s.setI w).mem = s.mem := rfl
@[simp] theorem setI_fault (w : Word) : (s.setI w).fault = s.fault := rfl
@[simp] theorem setI_cfg (w : Word) : (s.setI w).cfg = s.cfg := rfl
@[simp] theorem setI_rndPort (w : Word) : (s.setI w).rndPort = s.rndPort := rfl
@[simp] theorem setI_draws (w : Word) : (s.setI w).draws = s.draws := rfl
@[simp] theorem setI_getV (w : Word) (q : Reg) : (s.setI w).getV q = s.getV q := rfl
@[simp] theorem setI_memRead (w : Word) (ad : Nat) : (s.setI w).memRead ad = s.memRead ad := rfl
@[simp] theorem setI_getKey (w : Word) (j : Fin 16) : (s.setI w).getKey j = s.getKey j := rfl

/-! ### setPc -/

@[simp] theorem setPc_v (w : Word) : (s.setPc w).v = s.v := rfl
@[simp] theorem setPc_i (w : Word) : (s.setPc w).i = s.i := rfl
@[simp] theorem setPc_pc (w : Word) : (s.setPc w).pc = w := rfl
@[simp] theorem setPc_sp (w : Word) : (s.setPc w).sp = s.sp := rfl
@[simp] theorem setPc_stack (w : Word) : (s.setPc w).stack = s.stack := rfl
@[simp] theorem setPc_dt (w : Word) : (s.setPc w).dt = s.dt := rfl
@[simp] theorem setPc_st (w : Word) : (s.setPc w).st = s.st := rfl
@[simp] theorem setPc_video (w : Word) : (s.setPc w).video = s.video := rfl
@[simp] theorem setPc_keys (w : Word) : (s.setPc w).keys = s.keys := rfl
@[simp] theorem setPc_mem (w : Word) : (s.setPc w).mem = s.mem := rfl
@[simp] theorem setPc_fault (w : Word) : (s.setPc w).fault = s.fault := rfl
@[simp] theorem setPc_cfg (w : Word) : (s.setPc w).cfg = s.cfg := rfl
@[simp] theorem setPc_rndPort (w : Word) : (s.setPc w).rndPort = s.rndPort := rfl
@[simp] theorem setPc_draws (w : Word) : (s.setPc w).draws = s.draws := rfl
@[simp] theorem setPc_getV (w : Word) (q : Reg) : (s.setPc w).getV q = s.getV q := rfl
@[simp] theorem setPc_memRead (w : Word) (ad : Nat) : (s.setPc w).memRead ad = s.memRead ad := rfl
@[simp] theorem setPc_indexed (w : Word) (off : Nat) : (s.setPc w).indexed off = s.indexed off := rfl
@[simp] theorem setPc_getKey (w : Word) (j : Fin 16) : (s.setPc w).getKey j = s.getKey j := rfl

/-! ### setDT -/

@[simp] theorem setDT_v (b : Byte) : (s.setDT b).v = s.v := rfl
@[simp] theorem setDT_i (b : Byte) : (s.setDT b).i = s.i := rfl
@[simp] theorem setDT_pc (b : Byte) : (s.setDT b).pc = s.pc := rfl
@[simp] theorem setDT_sp (b : Byte) : (s.setDT b).sp = s.sp := rfl
@[simp] theorem setDT_stack (b : Byte) : (s.setDT b).stack = s.stack := rfl
@[simp] theorem setDT_dt (b : Byte) : (s.setDT b).dt = b := rfl
@[simp] theorem setDT_st (b : Byte) : (s.setDT b).st = s.st := rfl
@[simp] theorem setDT_video (b : Byte) : (s.setDT b).video = s.video := rfl
@[simp] theorem setDT_keys (b : Byte) : (s.setDT b).keys = s.keys := rfl
@[simp] theorem setDT_mem (b : Byte) : (s.setDT b).mem = s.mem := rfl
@[simp] theorem setDT_fault (b : Byte) : (s.setDT b).fault = s.fault := rfl
@[simp] theorem setDT_cfg (b : Byte) : (s.setDT b).cfg = s.cfg := rfl
@[simp] theorem setDT_rndPort (b : Byte) : (s.setDT b).rndPort = s.rndPort := rfl
@[simp] theorem setDT_draws (b : Byte) : (s.setDT b).draws = s.draws := rfl
@[simp] theorem setDT_getV (b : Byte) (q : Reg) : (s.setDT b).getV q = s.getV q := rfl
@[simp] theorem setDT_memRead (b : Byte) (ad : Nat) : (s.setDT b).memRead ad = s.memRead ad := rfl
@[simp] theorem setDT_indexed (b : Byte) (off : Nat) : (s.setDT b).indexed off = s.indexed off := rfl
@[simp] theorem setDT_getKey (b : Byte) (j : Fin 16) : (s.setDT b).getKey j = s.getKey j := rfl

/-! ### setST -/

@[simp] theorem setST_v (b : Byte) : (s.setST b).v = s.v := rfl
@[simp] theorem setST_i (b : Byte) : (s.setST b).i = s.i := rfl
@[simp] theorem setST_pc (b : Byte) : (s.setST b).pc = s.pc := rfl
@[simp] theorem setST_sp (b : Byte) : (s.setST b).sp = s.sp := rfl
@[simp] theorem setST_stack (b : Byte) : (s.setST b).stack = s.stack := rfl
@[simp] theorem setST_dt (b : Byte) : (s.setST b).dt = s.dt := rfl
@[simp] theorem setST_st (b : Byte) : (s.setST b).st = b := rfl
@[simp] theorem setST_video (b : Byte) : (s.setST b).video = s.video := rfl
@[simp] theorem setST_keys (b : Byte) : (s.setST b).keys = s.keys := rfl
@[simp] theorem setST_mem (b : Byte) : (s.setST b).mem = s.mem := rfl
@[simp] theorem setST_fault (b : Byte) : (s.setST b).fault = s.fault := rfl
@[simp] theorem setST_cfg (b : Byte) : (s.setST b).cfg = s.cfg := rfl
@[simp] theorem setST_rndPort (b : Byte) : (s.setST b).rndPort = s.rndPort := rfl
@[simp] theorem setST_draws (b : Byte) : (s.setST b).draws = s.draws := rfl
@[simp] theorem setST_getV (b : Byte) (q : Reg) : (s.setST b).getV q = s.getV q := rfl
@[simp] theorem setST_memRead (b : Byte) (ad : Nat) : (s.setST b).memRead ad = s.memRead ad := rfl
@[simp] theorem setST_indexed (b : Byte) (off : Nat) : (s.setST b).indexed off = s.indexed off := rfl
@[simp] theorem setST_getKey (b : Byte) (j : Fin 16) : (s.setST b).getKey j = s.getKey j := rfl

/-! ### setVideo -/

@[simp] theorem setVideo_v (vid : Video) : (s.setVideo vid).v = s.v := rfl
@[simp] theorem setVideo_i (vid : Video) : (s.setVideo vid).i = s.i := rfl
@[simp] theorem setVideo_pc (vid : Video) : (s.setVideo vid).pc = s.pc := rfl
@[simp] theorem setVideo_sp (vid : Video) : (s.setVideo vid).sp = s.sp := rfl
@[simp] theorem setVideo_stack (vid : Video) : (s.setVideo vid).stack = s.stack := rfl
@[simp] theorem setVideo_dt (vid : Video) : (s.setVideo vid).dt = s.dt := rfl
@[simp] theorem setVideo_st (vid : Video) : (s.setVideo vid).st = s.st := rfl
@[simp] theorem setVideo_video (vid : Video) : (s.setVideo vid).video = vid := rfl
@[simp] theorem setVideo_keys (vid : Video) : (s.setVideo vid).keys = s.keys := rfl
@[simp] theorem setVideo_mem (vid : Video) : (s.setVideo vid).mem = s.mem := rfl
@[simp] theorem setVideo_fault (vid : Video) : (s.setVideo vid).fault = s.fault := rfl
@[simp] theorem setVideo_cfg (vid : Video) : (s.setVideo vid).cfg = s.cfg := rfl
@[simp] theorem setVideo_rndPort (vid : Video) : (s.setVideo vid).rndPort = s.rndPort := rfl
@[simp] theorem setVideo_draws (vid : Video) : (s.setVideo vid).draws = s.draws := rfl
@[simp] theorem setVideo_getV (vid : Video) (q : Reg) : (s.setVideo vid).getV q = s.getV q := rfl
@[simp] theorem setVideo_memRead (vid : Video) (ad : Nat) : (s.setVideo vid).memRead ad = s.memRead ad := rfl
@[simp] theorem setVideo_indexed (vid : Video) (off : Nat) : (s.setVideo vid).indexed off = s.indexed off := rfl
@[simp] theorem setVideo_getKey (vid : Video) (j : Fin 16) : (s.setVideo vid).getKey j = s.getKey j := rfl

/-! ### memWrite -/

@[simp] theorem memWrite_v (a : Nat) (b : Byte) : (s.memWrite a b).v = s.v := rfl
@[simp] theorem memWrite_i (a : Nat) (b : Byte) : (s.memWrite a b).i = s.i := rfl
@[simp] theorem memWrite_pc (a : Nat) (b : Byte) : (s.memWrite a b).pc = s.pc := rfl
@[simp] theorem memWrite_sp (a : Nat) (b : Byte) : (s.memWrite a b).sp = s.sp := rfl
@[simp] theorem memWrite_stack (a : Nat) (b : Byte) : (s.memWrite a b).stack = s.stack := rfl
@[simp] theorem memWrite_dt (a : Nat) (b : Byte) : (s.memWrite a b).dt = s.dt := rfl
@[simp] theorem memWrite_st (a : Nat) (b : Byte) : (s.memWrite a b).st = s.st := rfl
@[simp] theorem memWrite_video (a : Nat) (b : Byte) : (s.memWrite a b).video = s.video := rfl
@[simp] theorem memWrite_keys (a : Nat) (b : Byte) : (s.memWrite a b).keys = s.keys := rfl
@[simp] theorem memWrite_mem (a : Nat) (b : Byte) : (s.memWrite a b).mem = s.mem.write (a % memSize) b := rfl
@[simp] theorem memWrite_fault (a : Nat) (b : Byte) : (s.memWrite a b).fault = s.fault := rfl
@[simp] theorem memWrite_cfg (a : Nat) (b : Byte) : (s.memWrite a b).cfg = s.cfg := rfl
@[simp] theorem memWrite_rndPort (a : Nat) (b : Byte) : (s.memWrite a b).rndPort = s.rndPort := rfl
@[simp] theorem memWrite_draws (a : Nat) (b : Byte) : (s.memWrite a b).draws = s.draws := rfl
@[simp] theorem memWrite_getV (a : Nat) (b : Byte) (q : Reg) : (s.memWrite a b).getV q = s.getV q := rfl
@[simp] theorem memWrite_indexed (a : Nat) (b : Byte) (off : Nat) : (s.memWrite a b).indexed off = s.indexed off := rfl
@[simp] theorem memWrite_getKey (a : Nat) (b : Byte) (j : Fin 16) : (s.memWrite a b).getKey j = s.getKey j := rfl

/-! ### setKey -/

@[simp] theorem setKey_v (k : Fin 16) (p : Bool) : (s.setKey k p).v = s.v := rfl
@[simp] theorem setKey_i (k : Fin 16) (p : Bool) : (s.setKey k p).i = s.i := rfl
@[simp] theorem setKey_pc (k : Fin 16) (p : Bool) : (s.setKey k p).pc = s.pc := rfl
@[simp] theorem setKey_sp (k : Fin 16) (p : Bool) : (s.setKey k p).sp = s.sp := rfl
@[simp] theorem setKey_stack (k : Fin 16) (p : Bool) : (s.setKey k p).stack = s.stack := rfl
@[simp] theorem setKey_dt (k : Fin 16) (p : Bool) : (s.setKey k p).dt = s.dt := rfl
@[simp] theorem setKey_st (k : Fin 16) (p : Bool) : (s.setKey k p).st = s.st := rfl
@[simp] theorem setKey_video (k : Fin 16) (p : Bool) : (s.setKey k p).video = s.video := rfl
@[simp] theorem setKey_keys (k : Fin 16) (p : Bool) : (s.setKey k p).keys = s.keys.set k.val p k.isLt := rfl
@[simp] theorem setKey_mem (k : Fin 16) (p : Bool) : (s.setKey k p).mem = s.mem := rfl
@[simp] theorem setKey_fault (k : Fin 16) (p : Bool) : (s.setKey k p).fault = s.fault := rfl
@[simp] theorem setKey_cfg (k : Fin 16) (p : Bool) : (s.setKey k p).cfg = s.cfg := rfl
@[simp] theorem setKey_rndPort (k : Fin 16) (p : Bool) : (s.setKey k p).rndPort = s.rndPort := rfl
@[simp] theorem setKey_draws (k : Fin 16) (p : Bool) : (s.setKey k p).draws = s.draws := rfl
@[simp] theorem setKey_getV (k : Fin 16) (p : Bool) (q : Reg) : (s.setKey k p).getV q = s.getV q := rfl
@[simp] theorem setKey_memRead (k : Fin 16) (p : Bool) (ad : Nat) : (s.setKey k p).memRead ad = s.memRead ad := rfl
@[simp] theorem setKey_indexed (k : Fin 16) (p : Bool) (off : Nat) : (s.setKey k p).indexed off = s.indexed off := rfl

/-! ### countDraw -/

@[simp] theorem countDraw_v : (s.countDraw).v = s.v := rfl
@[simp] theorem countDraw_i : (s.countDraw).i = s.i := rfl
@[simp] theorem countDraw_pc : (s.countDraw).pc = s.pc := rfl
@[simp] theorem countDraw_sp : (s.countDraw).sp = s.sp := rfl
@[simp] theorem countDraw_stack : (s.countDraw).stack = s.stack := rfl
@[simp] theorem countDraw_dt : (s.countDraw).dt = s.dt := rfl
@[simp] theorem countDraw_st : (s.countDraw).st = s.st := rfl
@[simp] theorem countDraw_video : (s.countDraw).video = s.video := rfl
@[simp] theorem countDraw_keys : (s.countDraw).keys = s.keys := rfl
@[simp] theorem countDraw_mem : (s.countDraw).mem = s.mem := rfl
@[simp] theorem countDraw_fault : (s.countDraw).fault = s.fault := rfl
@[simp] theorem countDraw_cfg : (s.countDraw).cfg = s.cfg := rfl
@[simp] theorem countDraw_rndPort : (s.countDraw).rndPort = s.rndPort := rfl
@[simp] theorem countDraw_draws : (s.countDraw).draws = s.draws + 1 := rfl
@[simp] theorem countDraw_getV (q : Reg) : (s.countDraw).getV q = s.getV q := rfl
@[simp] theorem countDraw_memRead (ad : Nat) : (s.countDraw).memRead ad = s.memRead ad := rfl
@[simp] theorem countDraw_indexed (off : Nat) : (s.countDraw).indexed off = s.indexed off := rfl
@[simp] theorem countDraw_getKey (j : Fin 16) : (s.countDraw).getKey j = s.getKey j := rfl

/-! ### setRndPort -/

@[simp] theorem setRndPort_v (r : Option Byte) : (s.setRndPort r).v = s.v := rfl
@[simp] theorem setRndPort_i (r : Option Byte) : (s.setRndPort r).i = s.i := rfl
@[simp] theorem setRndPort_pc (r : Option Byte) : (s.setRndPort r).pc = s.pc := rfl
@[simp] theorem setRndPort_sp (r : Option Byte) : (s.setRndPort r).sp = s.sp := rfl
@[simp] theorem setRndPort_stack (r : Option Byte) : (s.setRndPort r).stack = s.stack := rfl
@[simp] theorem setRndPort_dt (r : Option Byte) : (s.setRndPort r).dt = s.dt := rfl
@[simp] theorem setRndPort_st (r : Option Byte) : (s.setRndPort r).st = s.st := rfl
@[simp] theorem setRndPort_video (r : Option Byte) : (s.setRndPort r).video = s.video := rfl
@[simp] theorem setRndPort_keys (r : Option Byte) : (s.setRndPort r).keys = s.keys := rfl
@[simp] theorem setRndPort_mem (r : Option Byte) : (s.setRndPort r).mem = s.mem := rfl
@[simp] theorem setRndPort_fault (r : Option Byte) : (s.setRndPort r).fault = s.fault := rfl
@[simp] theorem setRndPort_cfg (r : Option Byte) : (s.setRndPort r).cfg = s.cfg := rfl
@[simp] theorem setRndPort_rndPort (r : Option Byte) : (s.setRndPort r).rndPort = r := rfl
@[simp] theorem setRndPort_draws (r : Option Byte) : (s.setRndPort r).draws = s.draws := rfl
@[simp] theorem setRndPort_getV (r : Option Byte) (q : Reg) : (s.setRndPort r).getV q = s.getV q := rfl
@[simp] theorem setRndPort_memRead (r : Option Byte) (ad : Nat) : (s.setRndPort r).memRead ad = s.memRead ad := rfl
@[simp] theorem setRndPort_indexed (r : Option Byte) (off : Nat) : (s.setRndPort r).indexed off = s.indexed off := rfl
@[simp] theorem setRndPort_getKey (r : Option Byte) (j : Fin 16) : (s.setRndPort r).getKey j = s.getKey j := rfl

/-! ### raise -/

@[simp] theorem raise_v (c : FaultCause) (w : Word) : (s.raise c w).v = s.v := rfl
@[simp] theorem raise_i (c : FaultCause) (w : Word) : (s.raise c w).i = s.i := rfl
@[simp] theorem raise_pc (c : FaultCause) (w : Word) : (s.raise c w).pc = s.pc - 2 := rfl
@[simp] theorem raise_sp (c : FaultCause) (w : Word) : (s.raise c w).sp = s.sp := rfl
@[simp] theorem raise_stack (c : FaultCause) (w : Word) : (s.raise c w).stack = s.stack := rfl
@[simp] theorem raise_dt (c : FaultCause) (w : Word) : (s.raise c w).dt = s.dt := rfl
@[simp] theorem raise_st (c : FaultCause) (w : Word) : (s.raise c w).st = s.st := rfl
@[simp] theorem raise_video (c : FaultCause) (w : Word) : (s.raise c w).video = s.video := rfl
@[simp] theorem raise_keys (c : FaultCause) (w : Word) : (s.raise c w).keys = s.keys := rfl
@[simp] theorem raise_mem (c : FaultCause) (w : Word) : (s.raise c w).mem = s.mem := rfl
@[simp] theorem raise_fault (c : FaultCause) (w : Word) : (s.raise c w).fault = some ⟨c, s.pc - 2, w⟩ := rfl
@[simp] theorem raise_cfg (c : FaultCause) (w : Word) : (s.raise c w).cfg = s.cfg := rfl
@[simp] theorem raise_rndPort (c : FaultCause) (w : Word) : (s.raise c w).rndPort = s.rndPort := rfl
@[simp] theorem raise_draws (c : FaultCause) (w : Word) : (s.raise c w).draws = s.draws := rfl
@[simp] theorem raise_getV (c : FaultCause) (w : Word) (q : Reg) : (s.raise c w).getV q = s.getV q := rfl
@[simp] theorem raise_memRead (c : FaultCause) (w : Word) (ad : Nat) : (s.raise c w).memRead ad = s.memRead ad := rfl
@[simp] theorem raise_indexed (c : FaultCause) (w : Word) (off : Nat) : (s.raise c w).indexed off = s.indexed off := rfl
@[simp] theorem raise_getKey (c : FaultCause) (w : Word) (j : Fin 16) : (s.raise c w).getKey j = s.getKey j := rfl

/-! ### Registers and keys -/

theorem getV_setV (x y : Reg) (b : Byte) : (s.setV x b).getV y = if y = x then b else s.getV y := by
  by_cases h : y = x
  · subst h; simp [State.getV]
  · have : x.val ≠ y.val := fun e => h (Fin.ext e.symm)
    simp [State.getV, h, this]

@[simp] theorem getV_setV_self (x : Reg) (b : Byte) : (s.setV x b).getV x = b := by simp [getV_setV]

theorem getV_setV_ne {x y : Reg} (h : y ≠ x) (b : Byte) : (s.setV x b).getV y = s.getV y := by
  simp [getV_setV, h]

theorem getKey_setKey (k j : Fin 16) (p : Bool) : (s.setKey k p).getKey j = if j = k then p else s.getKey j := by
  by_cases h : j = k
  · subst h; simp [State.getKey]
  · have : k.val ≠ j.val := fun e => h (Fin.ext e.symm)
    simp [State.getKey, h, this]

/-- A state is determined by its registers and its other fields. -/
theorem v_ext {s t : State} (h : ∀ r : Reg, t.getV r = s.getV r) : t.v = s.v := by
  apply Vector.ext
  intro k hk
  exact h ⟨k, hk⟩

/-! ### Conditional skips -/

theorem skipIf_true : s.skipIf true = s.setPc (s.pc + 2) := rfl

theorem skipIf_false : s.skipIf false = s := rfl

/-- A conditional skip moves `pc` and nothing else. -/
theorem skipIf_eq (c : Bool) : s.skipIf c = s.setPc (if c then s.pc + 2 else s.pc) := by cases c <;> rfl

end Sys2Proof.Machine
end

