-- ==== Sys2Proof/Laws/Memory.lean ====
section
/-! SUPPORT. Memory: the canonical form is kept, a write is read back and leaves every other byte alone, and
canonical memories that read alike are equal. -/

namespace Sys2Proof.Machine

theorem wfFrom_cons {lo a : Nat} {b : Byte} {m : Memory} :
    Memory.wfFrom lo ((a, b) :: m) = true ↔ lo ≤ a ∧ a < memSize ∧ b ≠ 0 ∧ Memory.wfFrom (a + 1) m = true := by
  simp [Memory.wfFrom, and_assoc]

theorem wfFrom_mono {lo lo' : Nat} (h : lo' ≤ lo) {m : Memory} (hm : Memory.wfFrom lo m = true) :
    Memory.wfFrom lo' m = true := by
  cases m with
  | nil => rfl
  | cons c m =>
    obtain ⟨a, b⟩ := c
    rw [wfFrom_cons] at hm ⊢
    exact ⟨by omega, hm.2⟩

/-- Below its first possible address a memory reads as 0. -/
theorem read_below {m : Memory} : ∀ {lo k : Nat}, Memory.wfFrom lo m = true → k < lo → m.read k = 0 := by
  induction m with
  | nil => intros; rfl
  | cons c m ih =>
    obtain ⟨a, b⟩ := c
    intro lo k hm hk
    rw [wfFrom_cons] at hm
    have : a ≠ k := by omega
    simp only [Memory.read, if_neg this]
    exact ih hm.2.2.2 (by omega)

/-- A write keeps the canonical form. -/
theorem write_wfFrom {m : Memory} : ∀ {lo k : Nat} {b : Byte}, Memory.wfFrom lo m = true → lo ≤ k → k < memSize →
    Memory.wfFrom lo (m.write k b) = true := by
  induction m with
  | nil =>
    intro lo k b _ h1 h2
    by_cases hb : b = 0
    · simp [Memory.write, hb, Memory.wfFrom]
    · simp only [Memory.write, if_neg hb]
      exact wfFrom_cons.2 ⟨h1, h2, hb, rfl⟩
  | cons c m ih =>
    obtain ⟨a, v⟩ := c
    intro lo k b hm h1 h2
    have hm' := wfFrom_cons.1 hm
    unfold Memory.write
    split
    · split
      · exact hm
      · next hb => exact wfFrom_cons.2 ⟨h1, h2, hb, wfFrom_cons.2 ⟨by omega, hm'.2⟩⟩
    · split
      · next hka =>
        split
        · exact wfFrom_mono (by omega) hm'.2.2.2
        · next hb => exact wfFrom_cons.2 ⟨h1, h2, hb, hka ▸ hm'.2.2.2⟩
      · exact wfFrom_cons.2 ⟨hm'.1, hm'.2.1, hm'.2.2.1, ih hm'.2.2.2 (by omega) h2⟩

/-- A write is read back, and leaves every other byte alone. -/
theorem read_write {m : Memory} : ∀ {lo : Nat}, Memory.wfFrom lo m = true → ∀ (k a : Nat) (b : Byte),
    (m.write k b).read a = if a = k then b else m.read a := by
  induction m with
  | nil =>
    intro lo _ k a b
    by_cases hb : b = 0
    · simp [Memory.write, Memory.read, hb]
    · simp only [Memory.write, if_neg hb, Memory.read]
      by_cases hak : a = k
      · simp [hak]
      · simp [hak, Ne.symm hak]
  | cons c m ih =>
    obtain ⟨d, v⟩ := c
    intro lo hm k a b
    have hm' := wfFrom_cons.1 hm
    have below : ∀ {j : Nat}, j < d + 1 → Memory.read m j = 0 := fun hj => read_below hm'.2.2.2 hj
    unfold Memory.write
    split
    · next hk =>
      split
      · next hb =>
        by_cases hak : a = k
        · subst hak
          simp [Memory.read, Nat.ne_of_gt hk, below (by omega : a < d + 1), hb]
        · simp [hak]
      · simp only [Memory.read, eq_comm (a := k) (b := a)]
    · split
      · next hkd =>
        subst hkd
        split
        · next hb =>
          by_cases hak : a = k
          · subst hak; simp [below (by omega : a < a + 1), hb]
          · simp [Memory.read, hak, Ne.symm hak]
        · by_cases hak : a = k
          · subst hak; simp [Memory.read]
          · simp [Memory.read, hak, Ne.symm hak]
      · next hkd =>
        simp only [Memory.read, ih hm'.2.2.2]
        by_cases hda : d = a
        · subst hda; simp [Ne.symm hkd]
        · simp [hda]

theorem write_wf {m : Memory} (hm : m.wf = true) {k : Nat} (hk : k < memSize) (b : Byte) :
    (m.write k b).wf = true := write_wfFrom hm (Nat.zero_le k) hk

theorem memWrite_wf {s : State} (h : s.mem.wf = true) (a : Nat) (b : Byte) : (s.memWrite a b).mem.wf = true :=
  write_wf h (Nat.mod_lt _ (by decide)) b

/-- `MemRead` after `MemWrite`. -/
theorem memRead_memWrite {s : State} (h : s.mem.wf = true) (a k : Nat) (b : Byte) :
    (s.memWrite a b).memRead k = if k % memSize = a % memSize then b else s.memRead k := by
  simp only [State.memRead, State.memWrite]
  exact read_write h _ _ _

/-- A memory in canonical form from `lo` on lists what it reads. -/
theorem wfFrom_ext {m : Memory} : ∀ {m' : Memory} {lo lo' : Nat}, Memory.wfFrom lo m = true →
    Memory.wfFrom lo' m' = true → (∀ k, m.read k = m'.read k) → m = m' := by
  induction m with
  | nil =>
    intro m' lo lo' _ h' heq
    cases m' with
    | nil => rfl
    | cons c m' =>
      obtain ⟨a, b⟩ := c
      have := heq a
      simp [Memory.read] at this
      exact absurd this.symm (wfFrom_cons.1 h').2.2.1
  | cons c m ih =>
    obtain ⟨a, b⟩ := c
    intro m' lo lo' h h' heq
    have hw := wfFrom_cons.1 h
    cases m' with
    | nil =>
      have := heq a
      simp [Memory.read] at this
      exact absurd this hw.2.2.1
    | cons c' m' =>
      obtain ⟨a', b'⟩ := c'
      have hw' := wfFrom_cons.1 h'
      have haa : a = a' := by
        rcases Nat.lt_trichotomy a a' with hlt | he | hgt
        · have := heq a
          simp only [Memory.read, if_true, if_neg (Nat.ne_of_gt hlt)] at this
          rw [read_below hw'.2.2.2 (by omega)] at this
          exact absurd this hw.2.2.1
        · exact he
        · have := heq a'
          simp only [Memory.read, if_true, if_neg (Nat.ne_of_gt hgt)] at this
          rw [read_below hw.2.2.2 (by omega)] at this
          exact absurd this.symm hw'.2.2.1
      subst haa
      have hbb : b = b' := by simpa [Memory.read] using heq a
      subst hbb
      congr 1
      refine ih hw.2.2.2 hw'.2.2.2 fun k => ?_
      by_cases hk : a = k
      · subst hk
        rw [read_below hw.2.2.2 (by omega), read_below hw'.2.2.2 (by omega)]
      · simpa [Memory.read, hk] using heq k

/-! ### What LOAD lays out -/

/-- Bytes laid out from `a` up are in canonical form where they fit. -/
theorem cellsAt_wfFrom (bytes : List Byte) : ∀ a : Nat, a + bytes.length ≤ memSize →
    Memory.wfFrom a (cellsAt a bytes) = true := by
  induction bytes with
  | nil => intros; rfl
  | cons b bytes ih =>
    intro a h
    simp only [List.length_cons] at h
    have := ih (a + 1) (by omega)
    unfold cellsAt
    split
    · exact wfFrom_mono (by omega) this
    · next hb => exact wfFrom_cons.2 ⟨le_refl a, by omega, hb, this⟩

/-- The byte read where bytes were laid out. -/
theorem read_cellsAt (bytes : List Byte) : ∀ a k : Nat, a + bytes.length ≤ memSize →
    (cellsAt a bytes).read k = if a ≤ k then bytes.getD (k - a) 0 else 0 := by
  induction bytes with
  | nil => intro a k _; simp [cellsAt, Memory.read]
  | cons b bytes ih =>
    intro a k h
    simp only [List.length_cons] at h
    have hi := ih (a + 1) k (by omega)
    unfold cellsAt
    rcases Nat.lt_trichotomy k a with hlt | rfl | hgt
    · rw [if_neg (by omega : ¬ a + 1 ≤ k)] at hi
      rw [if_neg (by omega : ¬ a ≤ k)]
      split
      · exact hi
      · simp [Memory.read, Nat.ne_of_gt hlt, hi]
    · rw [if_neg (by omega : ¬ k + 1 ≤ k)] at hi
      split
      · next hb => simp [hi, hb]
      · simp [Memory.read]
    · rw [if_pos (by omega : a + 1 ≤ k)] at hi
      rw [if_pos (by omega : a ≤ k)]
      have : k - a = (k - (a + 1)) + 1 := by omega
      rw [this, List.getD_cons_succ]
      split
      · exact hi
      · simp [Memory.read, Nat.ne_of_lt hgt, hi]

/-- Two memories one after the other: the second lies above the first. -/
theorem append_wfFrom {m : Memory} : ∀ {lo mid : Nat} {m' : Memory}, Memory.wfFrom lo m = true →
    (∀ c ∈ m, c.1 < mid) → Memory.wfFrom mid m' = true → lo ≤ mid → Memory.wfFrom lo (m ++ m') = true := by
  induction m with
  | nil => intro lo mid m' _ _ h hle; exact wfFrom_mono hle h
  | cons c m ih =>
    obtain ⟨a, b⟩ := c
    intro lo mid m' h hlt h' hle
    have hw := wfFrom_cons.1 h
    have ha : a < mid := hlt (a, b) (by simp)
    exact wfFrom_cons.2 ⟨hw.1, hw.2.1, hw.2.2.1,
      ih hw.2.2.2 (fun c hc => hlt c (List.mem_cons_of_mem _ hc)) h' (by omega)⟩

theorem read_append {m : Memory} : ∀ {mid : Nat} {m' : Memory} (k : Nat), (∀ c ∈ m, c.1 < mid) →
    (k < mid → m'.read k = 0) → (m ++ m').read k = if k < mid then m.read k else m'.read k := by
  induction m with
  | nil =>
    intro mid m' k _ h0
    by_cases hk : k < mid
    · simp [Memory.read, hk, h0 hk]
    · simp [hk]
  | cons c m ih =>
    obtain ⟨a, b⟩ := c
    intro mid m' k hlt h0
    have ha : a < mid := hlt (a, b) (by simp)
    have hi := ih k (fun c hc => hlt c (List.mem_cons_of_mem _ hc)) h0
    simp only [List.cons_append, Memory.read, hi]
    by_cases hak : a = k
    · subst hak; simp [ha]
    · simp [hak]

theorem cellsAt_lt (bytes : List Byte) : ∀ a : Nat, ∀ c ∈ cellsAt a bytes, c.1 < a + bytes.length := by
  induction bytes with
  | nil => intro a c h; simp [cellsAt] at h
  | cons b bytes ih =>
    intro a c h
    simp only [List.length_cons]
    unfold cellsAt at h
    split at h
    · have := ih (a + 1) c h; omega
    · rcases List.mem_cons.1 h with rfl | h
      · simp only; omega
      · have := ih (a + 1) c h; omega

/-- LOAD leaves memory in canonical form. -/
theorem loadedMemory_wf (cfg : Config) {image : List Byte} (h : image.length ≤ maxImage) :
    (loadedMemory cfg image).wf = true := by
  simp only [maxImage] at h
  have hf : cfg.font.toList.length = 80 := by simp
  refine append_wfFrom (mid := progBase) ?_ ?_ ?_ (Nat.zero_le _)
  · exact cellsAt_wfFrom _ 0 (by rw [hf]; decide)
  · intro c hc
    have := cellsAt_lt _ 0 c hc
    rw [hf] at this
    simp only [progBase]; omega
  · exact cellsAt_wfFrom _ _ (by simp only [progBase, memSize]; omega)

/-- The byte LOAD leaves at each address: the font, zeros, the image, zeros. -/
theorem read_loadedMemory (cfg : Config) {image : List Byte} (h : image.length ≤ maxImage) (k : Nat) :
    (loadedMemory cfg image).read k =
      if k < progBase then cfg.font.toList.getD k 0 else image.getD (k - progBase) 0 := by
  simp only [maxImage] at h
  have hf : cfg.font.toList.length = 80 := by simp
  have hb : progBase + image.length ≤ memSize := by simp only [progBase, memSize]; omega
  unfold loadedMemory
  rw [read_append (mid := progBase) k]
  · rw [read_cellsAt _ _ _ (by rw [hf]; decide), read_cellsAt _ _ _ hb]
    by_cases hk : k < progBase
    · simp [hk]
    · simp [hk, Nat.le_of_not_lt hk]
  · intro c hc
    have := cellsAt_lt _ 0 c hc
    rw [hf] at this
    simp only [progBase]; omega
  · intro hk
    rw [read_cellsAt _ _ _ hb, if_neg (by omega)]

end Sys2Proof.Machine
end

