-- ==== Sys2Proof/Laws/Ops.lean ====
section
/-! SUPPORT. What each shared operation can do, once: the call stack, fault entry, the multi-byte transfers and
the key search. -/

namespace Sys2Proof.Machine

/-! ### The call stack -/

/-- A push succeeds exactly when the stack is not full: the slot at `SP` takes the word and `SP` grows. -/
theorem push_eq_some {s t : State} {w : Word} :
    s.push? w = some t ↔ ∃ h : s.sp.val < 16, t = { s with stack := s.stack.set s.sp.val w h, sp := ⟨s.sp.val + 1, by omega⟩ } := by
  unfold State.push?
  split
  · next h => simp [h, eq_comm]
  · next h => simp [h]

theorem push_eq_none {s : State} {w : Word} : s.push? w = none ↔ s.sp = 16 := by
  unfold State.push?
  constructor
  · intro h
    split at h
    · cases h
    · exact Fin.ext (by have := s.sp.isLt; change s.sp.val = 16; omega)
  · intro h
    rw [dif_neg (by rw [h]; decide)]

/-- A pop succeeds exactly when the stack is not empty: `SP` shrinks and the slot there is read. -/
theorem pop_eq_some {s t : State} {w : Word} :
    s.pop? = some (w, t) ↔ ∃ h : 0 < s.sp.val, w = s.stack[s.sp.val - 1]'(by omega) ∧ t = { s with sp := ⟨s.sp.val - 1, by omega⟩ } := by
  unfold State.pop?
  split
  · next h => simp [h, eq_comm]
  · next h => simp [h]

theorem pop_eq_none {s : State} : s.pop? = none ↔ s.sp = 0 := by
  unfold State.pop?
  constructor
  · intro h
    split at h
    · cases h
    · exact Fin.ext (by change s.sp.val = 0; omega)
  · intro h
    rw [dif_neg (by rw [h]; decide)]

/-- A stack error raises under the policy `fault` and proceeds under `ignore`. -/
theorem stackError_cases (s : State) (c : FaultCause) (w : Word) (p : State) :
    (s.cfg.stackPolicy = .fault ∧ s.stackError c w p = s.raise c w) ∨
    (s.cfg.stackPolicy = .ignore ∧ s.stackError c w p = p) := by
  unfold State.stackError
  cases h : s.cfg.stackPolicy <;> simp

/-! ### Registers V0 to Vx -/

theorem mem_regsUpTo {x r : Reg} : r ∈ regsUpTo x ↔ r ≤ x := by simp [regsUpTo]

theorem nodup_regsUpTo (x : Reg) : (regsUpTo x).Nodup := (List.nodup_finRange 16).filter _

/-- Two offsets below 16 reach different cells. -/
theorem effAddr_inj (s : State) {a b : Nat} (ha : a < 16) (hb : b < 16) (h : s.effAddr a = s.effAddr b) : a = b := by
  simp only [State.effAddr, State.indexed, memSize] at h
  omega

/-- Loading registers one after the other: each listed one takes its byte, the others keep theirs. -/
theorem loadEach_getV (rs : List Reg) : ∀ (s : State) (r : Reg),
    (loadEach rs s).getV r = if r ∈ rs then s.memRead (s.indexed r.val) else s.getV r := by
  induction rs with
  | nil => intro s r; simp [loadEach]
  | cons a rs ih =>
    intro s r
    have := ih (s.setV a (s.memRead (s.indexed a.val))) r
    simp only [loadEach, List.foldl_cons] at this ⊢
    rw [this]
    by_cases h : r ∈ rs
    · simp [h]
    · by_cases ha : r = a
      · subst ha; simp [h]
      · simp [h, ha, getV_setV]

/-- Loading registers changes nothing but the registers. -/
theorem loadEach_eq (rs : List Reg) : ∀ s : State, loadEach rs s = { s with v := (loadEach rs s).v } := by
  induction rs with
  | nil => intro s; rfl
  | cons a rs ih =>
    intro s
    have := ih (s.setV a (s.memRead (s.indexed a.val)))
    simp only [loadEach, List.foldl_cons] at this ⊢
    rw [this]
    simp [State.setV]

/-- Storing registers changes nothing but memory. -/
theorem storeEach_eq (rs : List Reg) : ∀ s : State, storeEach rs s = { s with mem := (storeEach rs s).mem } := by
  induction rs with
  | nil => intro s; rfl
  | cons a rs ih =>
    intro s
    have := ih (s.memWrite (s.indexed a.val) (s.getV a))
    simp only [storeEach, List.foldl_cons] at this ⊢
    rw [this]
    simp [State.memWrite]

theorem storeEach_wf (rs : List Reg) : ∀ {s : State}, s.mem.wf = true → (storeEach rs s).mem.wf = true := by
  induction rs with
  | nil => intro s h; exact h
  | cons a rs ih => intro s h; exact ih (memWrite_wf h _ _)

/-- A byte at none of the addresses stored to is unchanged. -/
theorem storeEach_memRead_other (rs : List Reg) : ∀ {s : State}, s.mem.wf = true → ∀ {a : Nat},
    (∀ r ∈ rs, a % memSize ≠ s.effAddr r.val) → (storeEach rs s).memRead a = s.memRead a := by
  induction rs with
  | nil => intros; rfl
  | cons b rs ih =>
    intro s h a ha
    have hw := memWrite_wf h (s.indexed b.val) (s.getV b)
    have := ih hw (a := a) (fun r hr => ha r (List.mem_cons_of_mem _ hr))
    simp only [storeEach, List.foldl_cons] at this ⊢
    rw [this, memRead_memWrite h]
    exact if_neg (ha b (by simp))

/-- Each register stored is read back at its address. -/
theorem storeEach_memRead (rs : List Reg) : ∀ {s : State}, s.mem.wf = true → rs.Nodup → ∀ r ∈ rs,
    (storeEach rs s).memRead (s.indexed r.val) = s.getV r := by
  induction rs with
  | nil => intro _ _ _ r hr; simp at hr
  | cons b rs ih =>
    intro s h hn r hr
    have hw := memWrite_wf h (s.indexed b.val) (s.getV b)
    have hn' := List.nodup_cons.1 hn
    rcases List.mem_cons.1 hr with rfl | hr
    · have := storeEach_memRead_other rs hw (a := s.indexed r.val) (fun q hq he =>
        hn'.1 (Fin.ext (effAddr_inj s r.isLt q.isLt he) ▸ hq))
      simp only [storeEach, List.foldl_cons] at this ⊢
      rw [this, memRead_memWrite h, if_pos rfl]
    · exact ih hw hn'.2 r hr

/-! ### Keys -/

/-- The lowest key down is down, and every key below it is up. -/
theorem lowestKey_some {s : State} {k : Fin 16} (h : s.lowestKey = some k) :
    s.getKey k = true ∧ ∀ j < k, s.getKey j = false := by
  rw [State.lowestKey, List.find?_eq_some_iff_append] at h
  obtain ⟨hk, as, bs, hab, hno⟩ := h
  refine ⟨hk, fun j hj => ?_⟩
  have hsorted : (as ++ k :: bs).Pairwise (· < ·) := hab ▸ List.pairwise_lt_finRange 16
  have hmem : j ∈ as ++ k :: bs := hab ▸ List.mem_finRange j
  rcases List.mem_append.1 hmem with hj' | hj'
  · simpa using hno j hj'
  · rcases List.mem_cons.1 hj' with rfl | hj'
    · exact absurd hj (lt_irrefl _)
    · have := List.rel_of_pairwise_cons (List.pairwise_append.1 hsorted).2.1 hj'
      exact absurd hj (not_lt.2 this.le)

theorem lowestKey_none {s : State} : s.lowestKey = none ↔ ∀ k, s.getKey k = false := by
  simp [State.lowestKey]

end Sys2Proof.Machine
end

