-- ==== Sys2Proof/Laws/Control.lean ====
section
/-! SUPPORT. The three meanings that branch on the state (RET, CALL and the key wait): what each answers, case by
case, and the cases read back from an answer. -/

namespace Sys2Proof.Machine

/-! ### RET -/

theorem execRet_pop {s : State} (h : 0 < s.sp.val) :
    execRet s = .next { s with sp := ⟨s.sp.val - 1, by omega⟩, pc := s.stack[s.sp.val - 1] } := by
  simp only [execRet, State.pop?, dif_pos h]
  rfl

theorem execRet_empty {s : State} (h : s.sp = 0) :
    execRet s = .next (s.stackError .stackUnderflow (encode .ret) s) := by
  simp only [execRet, pop_eq_none.2 h]

theorem execRet_cases {s t : State} (h : execRet s = .next t) :
    (∃ _ : 0 < s.sp.val, t = { s with sp := ⟨s.sp.val - 1, by omega⟩, pc := s.stack[s.sp.val - 1] }) ∨
    (s.sp = 0 ∧ s.cfg.stackPolicy = .fault ∧ t = s.raise .stackUnderflow (encode .ret)) ∨
    (s.sp = 0 ∧ s.cfg.stackPolicy = .ignore ∧ t = s) := by
  rcases Nat.eq_zero_or_pos s.sp.val with h0 | hp
  · have h0 : s.sp = 0 := Fin.ext h0
    rw [execRet_empty h0] at h
    injection h with h
    rcases stackError_cases s .stackUnderflow (encode .ret) s with ⟨hpol, e⟩ | ⟨hpol, e⟩
    · exact .inr (.inl ⟨h0, hpol, h.symm.trans e⟩)
    · exact .inr (.inr ⟨h0, hpol, h.symm.trans e⟩)
  · rw [execRet_pop hp] at h
    injection h with h
    exact .inl ⟨hp, h.symm⟩

/-! ### CALL -/

theorem execCall_push {s : State} (nnn : Addr12) (h : s.sp.val < 16) :
    execCall nnn s = .next { s with
      sp := ⟨s.sp.val + 1, by omega⟩, stack := s.stack.set s.sp.val s.pc h, pc := addrOperand nnn } := by
  simp only [execCall, State.push?, dif_pos h]
  rfl

theorem execCall_full {s : State} (nnn : Addr12) (h : s.sp = 16) :
    execCall nnn s = .next (s.stackError .stackOverflow (encode (.call nnn)) (s.setPc (addrOperand nnn))) := by
  simp only [execCall, push_eq_none.2 h]

theorem execCall_cases {s t : State} {nnn : Addr12} (h : execCall nnn s = .next t) :
    (∃ hs : s.sp.val < 16, t = { s with
      sp := ⟨s.sp.val + 1, by omega⟩, stack := s.stack.set s.sp.val s.pc hs, pc := addrOperand nnn }) ∨
    (s.sp = 16 ∧ s.cfg.stackPolicy = .fault ∧ t = s.raise .stackOverflow (encode (.call nnn))) ∨
    (s.sp = 16 ∧ s.cfg.stackPolicy = .ignore ∧ t = s.setPc (addrOperand nnn)) := by
  rcases Nat.lt_or_ge s.sp.val 16 with hlt | hge
  · rw [execCall_push nnn hlt] at h
    injection h with h
    exact .inl ⟨hlt, h.symm⟩
  · have h16 : s.sp = 16 := Fin.ext (by have := s.sp.isLt; change s.sp.val = 16; omega)
    rw [execCall_full nnn h16] at h
    injection h with h
    rcases stackError_cases s .stackOverflow (encode (.call nnn)) (s.setPc (addrOperand nnn)) with ⟨hp, e⟩ | ⟨hp, e⟩
    · exact .inr (.inl ⟨h16, hp, h.symm.trans e⟩)
    · exact .inr (.inr ⟨h16, hp, h.symm.trans e⟩)

/-! ### The key wait -/

theorem execLdVxK_down {s : State} {x : Reg} {k : Fin 16} (h : s.lowestKey = some k) :
    execLdVxK x s = .next (s.setV x (keyByte k)) := by
  simp only [execLdVxK, h]

theorem execLdVxK_up {s : State} {x : Reg} (h : s.lowestKey = none) : execLdVxK x s = .next s.rewind := by
  simp only [execLdVxK, h]

theorem execLdVxK_cases {s t : State} {x : Reg} (h : execLdVxK x s = .next t) :
    (∃ k, s.lowestKey = some k ∧ t = s.setV x (keyByte k)) ∨ (s.lowestKey = none ∧ t = s.rewind) := by
  cases hk : s.lowestKey with
  | some k =>
    rw [execLdVxK_down hk] at h
    injection h with h
    exact .inl ⟨k, rfl, h.symm⟩
  | none =>
    rw [execLdVxK_up hk] at h
    injection h with h
    exact .inr ⟨rfl, h.symm⟩

end Sys2Proof.Machine
end

