-- ==== Sys2Proof/Laws/Decode.lean ====
section
/-! SUPPORT. The fields of an encoded word, as numbers, and the decoder on each format. -/

namespace Sys2Proof

/-! ### Words as numbers -/

theorem toNat_append_eq {m n : Nat} (a : BitVec m) (b : BitVec n) : (a ++ b).toNat = a.toNat * 2 ^ n + b.toNat := by
  rw [BitVec.toNat_append, ← Nat.shiftLeft_add_eq_or_of_lt b.isLt, Nat.shiftLeft_eq]

theorem toNat_encodeA (c : Nibble) (nnn : Addr12) : (encodeA c nnn).toNat = c.toNat * 4096 + nnn.toNat :=
  toNat_append_eq c nnn

theorem toNat_encodeXK (c : Nibble) (x : Reg) (kk : Byte) :
    (encodeXK c x kk).toNat = c.toNat * 4096 + x.val * 256 + kk.toNat := by
  have h : (encodeXK c x kk).toNat = (c ++ BitVec.ofFin (w := 4) x).toNat * 256 + kk.toNat := toNat_append_eq _ kk
  have hx : (c ++ BitVec.ofFin (w := 4) x).toNat = c.toNat * 16 + x.val := toNat_append_eq c _
  rw [h, hx]
  ring

theorem toNat_encodeXYN (c : Nibble) (x : Reg) (y n : Nibble) :
    (encodeXYN c x y n).toNat = c.toNat * 4096 + x.val * 256 + y.toNat * 16 + n.toNat := by
  have h : (y ++ n : Byte).toNat = y.toNat * 16 + n.toNat := toNat_append_eq y n
  rw [encodeXYN, toNat_encodeXK, h]
  omega

theorem toNat_encodeXY (c : Nibble) (x y : Reg) (n : Nibble) :
    (encodeXY c x y n).toNat = c.toNat * 4096 + x.val * 256 + y.val * 16 + n.toNat := by
  rw [encodeXY, toNat_encodeXYN]
  rfl

theorem toNat_opClass (w : Word) : (Fields.opClass w).toNat = w.toNat / 4096 := by
  simp [Fields.opClass, Nat.shiftRight_eq_div_pow]
  have := w.isLt
  omega

theorem toNat_nnn (w : Word) : (Fields.nnn w).toNat = w.toNat % 4096 := by simp [Fields.nnn]

theorem val_x (w : Word) : (Fields.x w).val = w.toNat / 256 % 16 := by
  simp [Fields.x, Nat.shiftRight_eq_div_pow]

theorem toNat_yBits (w : Word) : (Fields.yBits w).toNat = w.toNat / 16 % 16 := by
  simp [Fields.yBits, Nat.shiftRight_eq_div_pow]

theorem val_y (w : Word) : (Fields.y w).val = w.toNat / 16 % 16 := toNat_yBits w

theorem toNat_n (w : Word) : (Fields.n w).toNat = w.toNat % 16 := by simp [Fields.n]

theorem toNat_kk (w : Word) : (Fields.kk w).toNat = w.toNat % 256 := by simp [Fields.kk]

/-! ### The fields of each format -/

theorem opClass_encodeA (c : Nibble) (nnn : Addr12) : Fields.opClass (encodeA c nnn) = c := by
  apply BitVec.eq_of_toNat_eq
  rw [toNat_opClass, toNat_encodeA]
  omega

theorem nnn_encodeA (c : Nibble) (nnn : Addr12) : Fields.nnn (encodeA c nnn) = nnn := by
  apply BitVec.eq_of_toNat_eq
  rw [toNat_nnn, toNat_encodeA]
  omega

theorem opClass_encodeXK (c : Nibble) (x : Reg) (kk : Byte) : Fields.opClass (encodeXK c x kk) = c := by
  apply BitVec.eq_of_toNat_eq
  rw [toNat_opClass, toNat_encodeXK]
  omega

theorem x_encodeXK (c : Nibble) (x : Reg) (kk : Byte) : Fields.x (encodeXK c x kk) = x := by
  apply Fin.ext
  rw [val_x, toNat_encodeXK]
  omega

theorem kk_encodeXK (c : Nibble) (x : Reg) (kk : Byte) : Fields.kk (encodeXK c x kk) = kk := by
  apply BitVec.eq_of_toNat_eq
  rw [toNat_kk, toNat_encodeXK]
  omega

theorem opClass_encodeXYN (c : Nibble) (x : Reg) (y n : Nibble) : Fields.opClass (encodeXYN c x y n) = c :=
  opClass_encodeXK c x _

theorem x_encodeXYN (c : Nibble) (x : Reg) (y n : Nibble) : Fields.x (encodeXYN c x y n) = x :=
  x_encodeXK c x _

theorem yBits_encodeXYN (c : Nibble) (x : Reg) (y n : Nibble) : Fields.yBits (encodeXYN c x y n) = y := by
  apply BitVec.eq_of_toNat_eq
  rw [toNat_yBits, toNat_encodeXYN]
  omega

theorem n_encodeXYN (c : Nibble) (x : Reg) (y n : Nibble) : Fields.n (encodeXYN c x y n) = n := by
  apply BitVec.eq_of_toNat_eq
  rw [toNat_n, toNat_encodeXYN]
  omega

theorem opClass_encodeXY (c : Nibble) (x y : Reg) (n : Nibble) : Fields.opClass (encodeXY c x y n) = c :=
  opClass_encodeXYN c x _ n

theorem x_encodeXY (c : Nibble) (x y : Reg) (n : Nibble) : Fields.x (encodeXY c x y n) = x :=
  x_encodeXYN c x _ n

theorem y_encodeXY (c : Nibble) (x y : Reg) (n : Nibble) : Fields.y (encodeXY c x y n) = y := by
  rw [Fields.y, encodeXY, yBits_encodeXYN]

theorem n_encodeXY (c : Nibble) (x y : Reg) (n : Nibble) : Fields.n (encodeXY c x y n) = n :=
  n_encodeXYN c x _ n

/-! ### The decoder on each class -/

/-- The sixteen classes: each word is of one of them, and decodes as the class says. -/
theorem decode_cases (w : Word) :
    (Fields.opClass w = 0x0 ∧ decode w = decodeClass0 w) ∨
    (Fields.opClass w = 0x1 ∧ decode w = .ok (.jp (Fields.nnn w))) ∨
    (Fields.opClass w = 0x2 ∧ decode w = .ok (.call (Fields.nnn w))) ∨
    (Fields.opClass w = 0x3 ∧ decode w = .ok (.seByte (Fields.x w) (Fields.kk w))) ∨
    (Fields.opClass w = 0x4 ∧ decode w = .ok (.sneByte (Fields.x w) (Fields.kk w))) ∨
    (Fields.opClass w = 0x5 ∧ decode w = .ok (.seReg (Fields.x w) (Fields.y w) (Fields.n w))) ∨
    (Fields.opClass w = 0x6 ∧ decode w = .ok (.ldByte (Fields.x w) (Fields.kk w))) ∨
    (Fields.opClass w = 0x7 ∧ decode w = .ok (.addByte (Fields.x w) (Fields.kk w))) ∨
    (Fields.opClass w = 0x8 ∧ decode w = decodeClass8 w) ∨
    (Fields.opClass w = 0x9 ∧ decode w = .ok (.sneReg (Fields.x w) (Fields.y w) (Fields.n w))) ∨
    (Fields.opClass w = 0xA ∧ decode w = .ok (.ldI (Fields.nnn w))) ∨
    (Fields.opClass w = 0xB ∧ decode w = .ok (.jpV0 (Fields.nnn w))) ∨
    (Fields.opClass w = 0xC ∧ decode w = .ok (.rnd (Fields.x w) (Fields.kk w))) ∨
    (Fields.opClass w = 0xD ∧ decode w = .ok (.drw (Fields.x w) (Fields.y w) (Fields.n w))) ∨
    (Fields.opClass w = 0xE ∧ decode w = decodeClassE w) ∨
    (Fields.opClass w = 0xF ∧ decode w = decodeClassF w) := by
  unfold decode
  generalize Fields.opClass w = c
  obtain ⟨c⟩ := c
  fin_cases c <;> simp

/-! ### Every word is the encoding of its own fields -/

theorem eq_encodeA {w : Word} {c : Nibble} (h : Fields.opClass w = c) : encodeA c (Fields.nnn w) = w := by
  apply BitVec.eq_of_toNat_eq
  subst h
  rw [toNat_encodeA, toNat_opClass, toNat_nnn]
  omega

theorem eq_encodeXK {w : Word} {c : Nibble} {kk : Byte} (h : Fields.opClass w = c) (hk : Fields.kk w = kk) :
    encodeXK c (Fields.x w) kk = w := by
  apply BitVec.eq_of_toNat_eq
  subst h hk
  rw [toNat_encodeXK, toNat_opClass, val_x, toNat_kk]
  omega

theorem eq_encodeXYN {w : Word} {c n : Nibble} (h : Fields.opClass w = c) (hn : Fields.n w = n) :
    encodeXYN c (Fields.x w) (Fields.yBits w) n = w := by
  apply BitVec.eq_of_toNat_eq
  subst h hn
  rw [toNat_encodeXYN, toNat_opClass, val_x, toNat_yBits, toNat_n]
  omega

theorem eq_encodeXY {w : Word} {c n : Nibble} (h : Fields.opClass w = c) (hn : Fields.n w = n) :
    encodeXY c (Fields.x w) (Fields.y w) n = w := eq_encodeXYN h hn

/-! ### Inversions: what a word that decodes is -/

theorem decodeClass0_ok {w : Word} {i : Instr} (h : decodeClass0 w = .ok i) :
    (i = .cls ∧ w = 0x00E0) ∨ (i = .ret ∧ w = 0x00EE) := by
  unfold decodeClass0 at h
  split at h
  · next e => cases h; exact .inl ⟨rfl, e⟩
  · split at h
    · next e => cases h; exact .inr ⟨rfl, e⟩
    · cases h

/-- In class 8 the word is the encoding of what it decodes to. -/
theorem decodeClass8_ok {w : Word} {i : Instr} (hc : Fields.opClass w = 0x8) (h : decodeClass8 w = .ok i) :
    encode i = w := by
  simp only [decodeClass8] at h
  split at h
  · next e => cases h; exact eq_encodeXY hc e
  split at h
  · next e => cases h; exact eq_encodeXY hc e
  split at h
  · next e => cases h; exact eq_encodeXY hc e
  split at h
  · next e => cases h; exact eq_encodeXY hc e
  split at h
  · next e => cases h; exact eq_encodeXY hc e
  split at h
  · next e => cases h; exact eq_encodeXY hc e
  split at h
  · next e => cases h; exact eq_encodeXYN hc e
  split at h
  · next e => cases h; exact eq_encodeXY hc e
  split at h
  · next e => cases h; exact eq_encodeXYN hc e
  · cases h

/-- In class E the word is the encoding of what it decodes to. -/
theorem decodeClassE_ok {w : Word} {i : Instr} (hc : Fields.opClass w = 0xE) (h : decodeClassE w = .ok i) :
    encode i = w := by
  simp only [decodeClassE] at h
  split at h
  · next e => cases h; exact eq_encodeXK hc e
  split at h
  · next e => cases h; exact eq_encodeXK hc e
  · cases h

/-- In class F the word is the encoding of what it decodes to. -/
theorem decodeClassF_ok {w : Word} {i : Instr} (hc : Fields.opClass w = 0xF) (h : decodeClassF w = .ok i) :
    encode i = w := by
  simp only [decodeClassF] at h
  split at h
  · next e => cases h; exact eq_encodeXK hc e
  split at h
  · next e => cases h; exact eq_encodeXK hc e
  split at h
  · next e => cases h; exact eq_encodeXK hc e
  split at h
  · next e => cases h; exact eq_encodeXK hc e
  split at h
  · next e => cases h; exact eq_encodeXK hc e
  split at h
  · next e => cases h; exact eq_encodeXK hc e
  split at h
  · next e => cases h; exact eq_encodeXK hc e
  split at h
  · next e => cases h; exact eq_encodeXK hc e
  split at h
  · next e => cases h; exact eq_encodeXK hc e
  · cases h

end Sys2Proof
end

