-- ==== Sys2Proof/Laws/Display.lean ====
section
/-! SUPPORT. The draw as a set of toggled pixels (`44_display.md` R177 (a)): the pixels under a sprite's 1 bits
are distinct, each is toggled once, and the collision flag says whether one of them was set. -/

namespace Sys2Proof.Machine

/-! ### One pixel -/

theorem pixel_toggle (vid : Video) (px qx : Fin 64) (py qy : Fin 32) :
    Video.pixel (Video.toggle vid px py) qx qy = (Video.pixel vid qx qy != decide (qx = px ∧ qy = py)) := by
  by_cases hy : qy = py
  · subst hy
    have hq := qx.isLt
    by_cases hx : qx = px
    · subst hx; simp [Video.pixel, Video.toggle]
    · have hv : px.val ≠ qx.val := fun e => hx (Fin.ext e.symm)
      have hbit : (1#64 <<< px.val).getLsbD qx.val = false := by
        rw [BitVec.getLsbD_shiftLeft, BitVec.getLsbD_one]
        by_cases hlt : qx.val < px.val
        · simp [hlt]
        · have : qx.val - px.val ≠ 0 := by omega
          simp [this]
      have hrow : (Video.toggle vid px qy)[qy] = vid[qy] ^^^ (1#64 <<< px.val) := by simp [Video.toggle]
      rw [Video.pixel, hrow, BitVec.getLsbD_xor, hbit]
      simp [Video.pixel, hx]
  · have : py.val ≠ qy.val := fun e => hy (Fin.ext e.symm)
    simp [Video.pixel, Video.toggle, hy, this]

@[simp] theorem pixel_clear (px : Fin 64) (py : Fin 32) : Video.pixel Video.clear px py = false := by
  simp [Video.pixel, Video.clear]

/-- Two screens with the same pixels are the same screen. -/
theorem video_ext {u v : Video} (h : ∀ px py, Video.pixel u px py = Video.pixel v px py) : u = v := by
  apply Vector.ext
  intro k hk
  apply BitVec.eq_of_getLsbD_eq
  intro j hj
  exact h ⟨j, hj⟩ ⟨k, hk⟩

/-! ### A list of pixels -/

/-- Toggling distinct pixels flips each of them once, and collides if one of them was set. -/
theorem drawPixels_spec (ps : List (Fin 64 × Fin 32)) : ∀ (p : Video × Bool), ps.Nodup →
    (∀ qx qy, Video.pixel (ps.foldl (fun p q => drawPixel q.1 q.2 p) p).1 qx qy =
      (Video.pixel p.1 qx qy != decide ((qx, qy) ∈ ps))) ∧
    (ps.foldl (fun p q => drawPixel q.1 q.2 p) p).2 = (p.2 || ps.any (fun q => Video.pixel p.1 q.1 q.2)) := by
  induction ps with
  | nil => intro p _; simp
  | cons a ps ih =>
    obtain ⟨ax, ay⟩ := a
    intro p hn
    obtain ⟨ha, hn⟩ := List.nodup_cons.1 hn
    obtain ⟨h1, h2⟩ := ih (drawPixel ax ay p) hn
    constructor
    · intro qx qy
      rw [List.foldl_cons, h1]
      simp only [drawPixel, pixel_toggle, List.mem_cons, Prod.mk.injEq]
      by_cases hq : qx = ax ∧ qy = ay
      · obtain ⟨rfl, rfl⟩ := hq
        simp [ha]
      · simp [hq]
    · rw [List.foldl_cons, h2]
      have : ps.any (fun q => Video.pixel (Video.toggle p.1 ax ay) q.1 q.2) = ps.any (fun q => Video.pixel p.1 q.1 q.2) := by
        rw [Bool.eq_iff_iff, List.any_eq_true, List.any_eq_true]
        refine exists_congr fun q => and_congr_right fun hq => ?_
        have : ¬ (q.1 = ax ∧ q.2 = ay) := fun e => ha (by rw [← e.1, ← e.2]; exact hq)
        simp [pixel_toggle, this]
      simp only [drawPixel, List.any_cons, this, Bool.or_assoc]

/-! ### A sprite -/

/-- The pixels under the 1 bits of a sprite, in the order they are drawn. -/
def spritePixels (s : State) (ox oy n : Nat) : List (Fin 64 × Fin 32) :=
  (List.range n).flatMap fun r =>
    ((List.range 8).filter fun c => (s.memRead (s.indexed r)).getLsbD (7 - c)).map fun c =>
      (Fin.ofNat 64 (ox + c), Fin.ofNat 32 (oy + r))

theorem drawSprite_eq (s : State) (ox oy n : Nat) (p : Video × Bool) :
    drawSprite s ox oy n p = (spritePixels s ox oy n).foldl (fun p q => drawPixel q.1 q.2 p) p := by
  rw [spritePixels, List.foldl_flatMap]
  simp only [drawSprite, drawRow, List.foldl_map, List.foldl_filter]

theorem mem_spritePixels {s : State} {ox oy n : Nat} {px : Fin 64} {py : Fin 32} :
    (px, py) ∈ spritePixels s ox oy n ↔ ∃ r c : Nat, r < n ∧ c < 8 ∧
      (s.memRead (s.indexed r)).getLsbD (7 - c) = true ∧ px.val = (ox + c) % 64 ∧ py.val = (oy + r) % 32 := by
  simp only [spritePixels, List.mem_flatMap, List.mem_range, List.mem_map, List.mem_filter, Prod.mk.injEq,
    Fin.ext_iff, Fin.ofNat]
  constructor
  · rintro ⟨r, hr, c, ⟨hc, hb⟩, hx, hy⟩
    exact ⟨r, c, hr, hc, hb, hx.symm, hy.symm⟩
  · rintro ⟨r, c, hr, hc, hb, hx, hy⟩
    exact ⟨r, hr, c, ⟨hc, hb⟩, hx.symm, hy.symm⟩

/-- A sprite of at most 32 rows covers no pixel twice (`44_display.md` R177 (a)). -/
theorem nodup_spritePixels (s : State) (ox oy : Nat) {n : Nat} (hn : n ≤ 32) : (spritePixels s ox oy n).Nodup := by
  rw [spritePixels, List.nodup_flatMap]
  constructor
  · intro r _
    refine List.Nodup.map_on ?_ (List.nodup_range.filter _)
    intro c hc d hd h
    have hc := List.mem_range.1 (List.mem_filter.1 hc).1
    have hd := List.mem_range.1 (List.mem_filter.1 hd).1
    have := congrArg Fin.val (Prod.mk.inj h).1
    simp only [Fin.ofNat] at this
    omega
  · refine List.Pairwise.imp_of_mem ?_ (List.nodup_range (n := n))
    intro r q hr hq hne
    have hr := List.mem_range.1 hr
    have hq := List.mem_range.1 hq
    simp only [Function.onFun, List.disjoint_left, List.mem_map]
    rintro _ ⟨c, _, rfl⟩ ⟨d, _, h⟩
    have := congrArg Fin.val (Prod.mk.inj h).2
    simp only [Fin.ofNat] at this
    exact hne (by omega)

/-- What a draw leaves: each pixel under the sprite flipped, every other one kept, and the collision flag. -/
theorem drawSprite_spec (s : State) (ox oy : Nat) {n : Nat} (hn : n ≤ 32) (vid : Video) :
    (∀ qx qy, Video.pixel (drawSprite s ox oy n (vid, false)).1 qx qy =
      (Video.pixel vid qx qy != decide ((qx, qy) ∈ spritePixels s ox oy n))) ∧
    (drawSprite s ox oy n (vid, false)).2 = (spritePixels s ox oy n).any (fun q => Video.pixel vid q.1 q.2) := by
  rw [drawSprite_eq]
  simpa using drawPixels_spec (spritePixels s ox oy n) (vid, false) (nodup_spritePixels s ox oy hn)

/-- The pixels of a sprite depend on memory and `I` alone. -/
theorem spritePixels_congr {s t : State} (hm : ∀ a, t.memRead a = s.memRead a) (hi : t.i = s.i) (ox oy n : Nat) :
    spritePixels t ox oy n = spritePixels s ox oy n := by
  simp only [spritePixels, State.indexed, hm, hi]

end Sys2Proof.Machine
end

