-- ==== Sys2Proof/Laws/OpcodeMap.lean ====
section
/-! SUPPORT. The masks of the opcode map (`30_encoding.md` R74) as arithmetic on the word. -/

namespace Sys2Proof

theorem mask_whole (w : Word) : w &&& 0xFFFF#16 = w := by
  apply BitVec.eq_of_getLsbD_eq
  intro k hk
  interval_cases k <;> simp

theorem mask_class (w : Word) : w &&& 0xF000#16 = (w >>> 12) <<< 12 := by
  apply BitVec.eq_of_getLsbD_eq
  intro k hk
  interval_cases k <;> simp

theorem mask_class_n (w : Word) : w &&& 0xF00F#16 = (w >>> 12) <<< 12 + (w <<< 12) >>> 12 := by
  rw [BitVec.add_eq_or_of_and_eq_zero]
  · apply BitVec.eq_of_getLsbD_eq
    intro k hk
    interval_cases k <;> simp
  · apply BitVec.eq_of_getLsbD_eq
    intro k hk
    interval_cases k <;> simp

theorem mask_class_kk (w : Word) : w &&& 0xF0FF#16 = (w >>> 12) <<< 12 + (w <<< 8) >>> 8 := by
  rw [BitVec.add_eq_or_of_and_eq_zero]
  · apply BitVec.eq_of_getLsbD_eq
    intro k hk
    interval_cases k <;> simp
  · apply BitVec.eq_of_getLsbD_eq
    intro k hk
    interval_cases k <;> simp

/-- The rows with mask F000: the class digit alone. -/
theorem toNat_mask_class (w : Word) : (w &&& 0xF000#16).toNat = w.toNat / 4096 * 4096 := by
  rw [mask_class]
  simp [Nat.shiftRight_eq_div_pow, Nat.shiftLeft_eq]
  omega

/-- The rows with mask F00F: the class digit and `n`. -/
theorem toNat_mask_class_n (w : Word) : (w &&& 0xF00F#16).toNat = w.toNat / 4096 * 4096 + w.toNat % 16 := by
  rw [mask_class_n]
  simp [Nat.shiftRight_eq_div_pow, Nat.shiftLeft_eq]
  omega

/-- The rows with mask F0FF: the class digit and `kk`. -/
theorem toNat_mask_class_kk (w : Word) : (w &&& 0xF0FF#16).toNat = w.toNat / 4096 * 4096 + w.toNat % 256 := by
  rw [mask_class_kk]
  simp [Nat.shiftRight_eq_div_pow, Nat.shiftLeft_eq]
  omega

end Sys2Proof
end

