-- ==== Sys2Proof/Laws/PerInstr.lean ====
section
/-! SUPPORT. Statements made of each instruction as syntax: that its encoding decodes to it
(`30_encoding.md` R71, R74). -/

namespace Sys2Proof.Laws.RoundTrip

/-- Decoding the encoding of an instruction gives it back, whatever its operands. -/
def Statement (i : Instr) : Prop := decode (encode i) = .ok i

theorem cls : Statement (.cls) := rfl

theorem ret : Statement (.ret) := rfl

theorem jp (nnn : Addr12) : Statement (.jp nnn) := by
  simp [Statement, encode, decode, opClass_encodeA, nnn_encodeA]

theorem call (nnn : Addr12) : Statement (.call nnn) := by
  simp [Statement, encode, decode, opClass_encodeA, nnn_encodeA]

theorem seByte (x : Reg) (kk : Byte) : Statement (.seByte x kk) := by
  simp [Statement, encode, decode, opClass_encodeXK, x_encodeXK, kk_encodeXK]

theorem sneByte (x : Reg) (kk : Byte) : Statement (.sneByte x kk) := by
  simp [Statement, encode, decode, opClass_encodeXK, x_encodeXK, kk_encodeXK]

theorem seReg (x : Reg) (y : Reg) (n : Nibble) : Statement (.seReg x y n) := by
  simp [Statement, encode, decode, opClass_encodeXY, x_encodeXY, y_encodeXY, n_encodeXY]

theorem ldByte (x : Reg) (kk : Byte) : Statement (.ldByte x kk) := by
  simp [Statement, encode, decode, opClass_encodeXK, x_encodeXK, kk_encodeXK]

theorem addByte (x : Reg) (kk : Byte) : Statement (.addByte x kk) := by
  simp [Statement, encode, decode, opClass_encodeXK, x_encodeXK, kk_encodeXK]

theorem ldReg (x : Reg) (y : Reg) : Statement (.ldReg x y) := by
  simp [Statement, encode, decode, decodeClass8, opClass_encodeXY, x_encodeXY, y_encodeXY, n_encodeXY]

theorem orReg (x : Reg) (y : Reg) : Statement (.orReg x y) := by
  simp [Statement, encode, decode, decodeClass8, opClass_encodeXY, x_encodeXY, y_encodeXY, n_encodeXY]

theorem andReg (x : Reg) (y : Reg) : Statement (.andReg x y) := by
  simp [Statement, encode, decode, decodeClass8, opClass_encodeXY, x_encodeXY, y_encodeXY, n_encodeXY]

theorem xorReg (x : Reg) (y : Reg) : Statement (.xorReg x y) := by
  simp [Statement, encode, decode, decodeClass8, opClass_encodeXY, x_encodeXY, y_encodeXY, n_encodeXY]

theorem addReg (x : Reg) (y : Reg) : Statement (.addReg x y) := by
  simp [Statement, encode, decode, decodeClass8, opClass_encodeXY, x_encodeXY, y_encodeXY, n_encodeXY]

theorem subReg (x : Reg) (y : Reg) : Statement (.subReg x y) := by
  simp [Statement, encode, decode, decodeClass8, opClass_encodeXY, x_encodeXY, y_encodeXY, n_encodeXY]

theorem shr (x : Reg) (y : Nibble) : Statement (.shr x y) := by
  simp [Statement, encode, decode, decodeClass8, opClass_encodeXYN, x_encodeXYN, yBits_encodeXYN, n_encodeXYN]

theorem subnReg (x : Reg) (y : Reg) : Statement (.subnReg x y) := by
  simp [Statement, encode, decode, decodeClass8, opClass_encodeXY, x_encodeXY, y_encodeXY, n_encodeXY]

theorem shl (x : Reg) (y : Nibble) : Statement (.shl x y) := by
  simp [Statement, encode, decode, decodeClass8, opClass_encodeXYN, x_encodeXYN, yBits_encodeXYN, n_encodeXYN]

theorem sneReg (x : Reg) (y : Reg) (n : Nibble) : Statement (.sneReg x y n) := by
  simp [Statement, encode, decode, opClass_encodeXY, x_encodeXY, y_encodeXY, n_encodeXY]

theorem ldI (nnn : Addr12) : Statement (.ldI nnn) := by
  simp [Statement, encode, decode, opClass_encodeA, nnn_encodeA]

theorem jpV0 (nnn : Addr12) : Statement (.jpV0 nnn) := by
  simp [Statement, encode, decode, opClass_encodeA, nnn_encodeA]

theorem rnd (x : Reg) (kk : Byte) : Statement (.rnd x kk) := by
  simp [Statement, encode, decode, opClass_encodeXK, x_encodeXK, kk_encodeXK]

theorem drw (x : Reg) (y : Reg) (n : Nibble) : Statement (.drw x y n) := by
  simp [Statement, encode, decode, opClass_encodeXY, x_encodeXY, y_encodeXY, n_encodeXY]

theorem skp (x : Reg) : Statement (.skp x) := by
  simp [Statement, encode, decode, decodeClassE, opClass_encodeXK, x_encodeXK, kk_encodeXK]

theorem sknp (x : Reg) : Statement (.sknp x) := by
  simp [Statement, encode, decode, decodeClassE, opClass_encodeXK, x_encodeXK, kk_encodeXK]

theorem ldVxDT (x : Reg) : Statement (.ldVxDT x) := by
  simp [Statement, encode, decode, decodeClassF, opClass_encodeXK, x_encodeXK, kk_encodeXK]

theorem ldVxK (x : Reg) : Statement (.ldVxK x) := by
  simp [Statement, encode, decode, decodeClassF, opClass_encodeXK, x_encodeXK, kk_encodeXK]

theorem ldDTVx (x : Reg) : Statement (.ldDTVx x) := by
  simp [Statement, encode, decode, decodeClassF, opClass_encodeXK, x_encodeXK, kk_encodeXK]

theorem ldSTVx (x : Reg) : Statement (.ldSTVx x) := by
  simp [Statement, encode, decode, decodeClassF, opClass_encodeXK, x_encodeXK, kk_encodeXK]

theorem addI (x : Reg) : Statement (.addI x) := by
  simp [Statement, encode, decode, decodeClassF, opClass_encodeXK, x_encodeXK, kk_encodeXK]

theorem ldF (x : Reg) : Statement (.ldF x) := by
  simp [Statement, encode, decode, decodeClassF, opClass_encodeXK, x_encodeXK, kk_encodeXK]

theorem ldB (x : Reg) : Statement (.ldB x) := by
  simp [Statement, encode, decode, decodeClassF, opClass_encodeXK, x_encodeXK, kk_encodeXK]

theorem storeRegs (x : Reg) : Statement (.storeRegs x) := by
  simp [Statement, encode, decode, decodeClassF, opClass_encodeXK, x_encodeXK, kk_encodeXK]

theorem loadRegs (x : Reg) : Statement (.loadRegs x) := by
  simp [Statement, encode, decode, decodeClassF, opClass_encodeXK, x_encodeXK, kk_encodeXK]

end Sys2Proof.Laws.RoundTrip
end

