-- ==== Sys2Proof/Laws/Spelling.lean ====
section
/-! SUPPORT. The spec's patterns (`Safety.lean`: a word as a sum of its digits) are the encoder's words. -/

namespace Sys2Proof.Machine

theorem spellA_eq (c : Nibble) (nnn : Addr12) : spellA c.toNat nnn = encodeA c nnn := by
  apply BitVec.eq_of_toNat_eq
  rw [toNat_encodeA, spellA, BitVec.toNat_ofNat]
  have := nnn.isLt
  have := c.isLt
  omega

theorem spellXK_eq (c : Nibble) (x : Reg) (kk : Byte) : spellXK c.toNat x kk.toNat = encodeXK c x kk := by
  apply BitVec.eq_of_toNat_eq
  rw [toNat_encodeXK, spellXK, BitVec.toNat_ofNat]
  have := kk.isLt
  have := c.isLt
  omega

theorem spellXYN_eq (c : Nibble) (x : Reg) (y n : Nibble) : spellXYN c.toNat x y.toNat n.toNat = encodeXYN c x y n := by
  apply BitVec.eq_of_toNat_eq
  rw [toNat_encodeXYN, spellXYN, BitVec.toNat_ofNat]
  have := c.isLt
  have := y.isLt
  have := n.isLt
  omega

theorem spellXY_eq (c : Nibble) (x y : Reg) (n : Nibble) : spellXYN c.toNat x y.val n.toNat = encodeXY c x y n :=
  spellXYN_eq c x (BitVec.ofFin (w := 4) y) n

end Sys2Proof.Machine
end

