-- ==== Sys2Proof/Laws/Step.lean ====
section
/-! SUPPORT. What a step can do, once. -/

namespace Sys2Proof.Machine

/-- A step either does nothing, or executes the decoded instruction, or passes over an unrecognized word. -/
theorem step_cases {s t : State} (h : step s = .next t) :
    (s.idle = true ∧ t = s) ∨
    (s.idle = false ∧ ∃ i, decode s.fetchWord = .ok i ∧ exec i s.preAdvance = .next t) ∨
    (s.idle = false ∧ (∃ e, decode s.fetchWord = .error e) ∧ t = s.preAdvance) := by
  unfold step at h
  split at h
  · next hi => exact .inl ⟨hi, by injection h with h; exact h.symm⟩
  · next hi =>
    have hi : s.idle = false := by simpa using hi
    split at h
    · next i hd => exact .inr (.inl ⟨hi, i, hd, h⟩)
    · next e hd => exact .inr (.inr ⟨hi, ⟨e, hd⟩, by rw [execUnrecognized] at h; injection h with h; exact h.symm⟩)

theorem idle_eq_false {s : State} : s.idle = false ↔ s.fault = none ∧ s.pc.toNat + 1 ≤ 4095 := by
  simp [State.idle, State.halted]

theorem step_of_idle {s : State} (h : s.idle = true) : step s = .next s := by
  simp [step, h]

theorem step_of_decode {s : State} (h : s.idle = false) {i : Instr} (hd : decode s.fetchWord = .ok i) :
    step s = exec i s.preAdvance := by
  simp [step, h, hd]

theorem step_of_unrecognized {s : State} (h : s.idle = false) {e : Unrecognized} (hd : decode s.fetchWord = .error e) :
    step s = .next s.preAdvance := by
  simp [step, h, hd, execUnrecognized]

end Sys2Proof.Machine
end

