-- ==== Sys2Proof/Tests/Slice0.lean ====
section
/-! SUPPORT. Tests. The expected results are those of the vectors of `95_test_vectors.md` (each named by its id) or
of the rule named; the words are spelt from the patterns of `30_encoding.md` R74. The witnesses at the end meet the
hypotheses of the obligations. -/

namespace Sys2Proof.Tests

open Sys2Proof Sys2Proof.Machine

/-! ### Helpers -/

/-- The outcome is a next state that passes the check. -/
def okAnd (o : Host.Outcome State Fault Refusal) (p : State → Bool) : Bool :=
  match o with
  | .next t => p t
  | .fault _ => false
  | .refused _ => false

/-- The start of the vectors: the state after a successful LOAD of nothing, at 0x200. -/
def start : State := State.reset.loaded []

/-- One STEP of a word placed at the program counter. -/
def runs (s : State) (w : Nat) (p : State → Bool) : Bool := okAnd (step (s.withFetchWord 16 w)) p

/-- Registers set one after the other. -/
def regs (l : List (Reg × Byte)) (s : State) : State := l.foldl (fun t r => t.setV r.1 r.2) s

/-- Bytes stored from an address up. -/
def bytes (a : Nat) (l : List Byte) (s : State) : State :=
  l.zipIdx.foldl (fun t b => t.memWrite (a + b.2) b.1) s

/-- Rows of the screen, all others clear; bit `px` of a row is column `px`. -/
def rows (l : List (Fin 32 × BitVec 64)) : Video := l.foldl (fun v r => v.set r.1.val r.2 r.1.isLt) Video.clear

/-- `SP` and the slots below it, from the bottom. -/
def calls (l : List Word) (h : l.length ≤ 16) (s : State) : State :=
  { s with sp := ⟨l.length, by omega⟩, stack := Vector.ofFn (fun k => l.getD k.val 0) }

/-- The stack of vector C6: 16 slots, slot `i` holding 0x100 + 2 i. -/
def fullStack : State := { start with sp := 16, stack := Vector.ofFn (fun k => BitVec.ofNat 16 (0x100 + 2 * k.val)) }

/-- The same state under STACK_POLICY = `ignore`. -/
def ignoring (s : State) : State := { s with cfg := { s.cfg with stackPolicy := .ignore } }

/-! ### Well-formedness: what each check refuses -/

theorem test_unrecognized_words_match_no_row :
    [0x0000, 0x01E0, 0x00E1, 0x0123, 0x8008, 0x8FFF, 0xE000, 0xE19F, 0xF000, 0xF1FF, 0xF10B].all
      (fun w => !wordIsInstruction w) = true := by decide

theorem test_first_and_last_words_of_rows_match :
    [0x00E0, 0x00EE, 0x1000, 0x2FFF, 0x5121, 0x9FFF, 0x8FFE, 0xDFFF, 0xEF9E, 0xFF65].all wordIsInstruction = true := by
  decide

theorem test_other_spellings_are_not_assembled :
    Instr.asAssembled (.shr 1 5) = false ∧ Instr.asAssembled (.shl 1 15) = false ∧
    Instr.asAssembled (.seReg 1 2 1) = false ∧ Instr.asAssembled (.sneReg 1 2 15) = false := by decide

theorem test_assembled_spellings :
    Instr.asAssembled (.shr 1 0) = true ∧ Instr.asAssembled (.seReg 1 2 0) = true ∧
    Instr.asAssembled .cls = true := by decide

theorem imageFits_replicate (n : Nat) (b : Byte) : imageFits (some (List.replicate n b)) = decide (n ≤ 3584) := by
  simp [imageFits, maxImage]

/-- R252: `absent` and 3585 bytes are refused (R2, R3 of L2.7). -/
theorem test_images_refused :
    imageFits none = false ∧ imageFits (some (List.replicate 3585 0xAB)) = false :=
  ⟨rfl, (imageFits_replicate 3585 0xAB).trans (by decide)⟩

/-- R252: 0 and 3584 bytes are accepted (R1, R4 of L2.7). -/
theorem test_images_accepted :
    imageFits (some []) = true ∧ imageFits (some (List.replicate 3584 0xAB)) = true :=
  ⟨rfl, (imageFits_replicate 3584 0xAB).trans (by decide)⟩

/-! ### Decoding: a word for every constructor, bit by bit from R71 and R74 -/

theorem test_decode_display :
    decode 0b0000_0000_1110_0000 = .ok .cls ∧ decode 0b1101_0011_1010_0111 = .ok (.drw 3 10 7) := by decide

theorem test_decode_jumps_and_calls :
    decode 0b0000_0000_1110_1110 = .ok .ret ∧ decode 0b0001_1010_0011_1100 = .ok (.jp 0xA3C) ∧
    decode 0b0010_1010_0011_1100 = .ok (.call 0xA3C) ∧ decode 0b1011_1010_0011_1100 = .ok (.jpV0 0xA3C) := by decide

theorem test_decode_skips :
    decode 0b0011_0011_1010_0111 = .ok (.seByte 3 0xA7) ∧ decode 0b0100_0011_1010_0111 = .ok (.sneByte 3 0xA7) ∧
    decode 0b0101_0011_1010_0000 = .ok (.seReg 3 10 0) ∧ decode 0b0101_0011_1010_0111 = .ok (.seReg 3 10 7) ∧
    decode 0b1001_0011_1010_0000 = .ok (.sneReg 3 10 0) ∧ decode 0b1001_0011_1010_1111 = .ok (.sneReg 3 10 15) ∧
    decode 0b1110_1100_1001_1110 = .ok (.skp 12) ∧ decode 0b1110_1100_1010_0001 = .ok (.sknp 12) := by decide

theorem test_decode_loads_and_adds :
    decode 0b0110_0011_1010_0111 = .ok (.ldByte 3 0xA7) ∧ decode 0b0111_0011_1010_0111 = .ok (.addByte 3 0xA7) ∧
    decode 0b1000_0011_1010_0000 = .ok (.ldReg 3 10) ∧ decode 0b1100_0011_1010_0111 = .ok (.rnd 3 0xA7) := by decide

theorem test_decode_alu :
    decode 0b1000_0011_1010_0001 = .ok (.orReg 3 10) ∧ decode 0b1000_0011_1010_0010 = .ok (.andReg 3 10) ∧
    decode 0b1000_0011_1010_0011 = .ok (.xorReg 3 10) ∧ decode 0b1000_0011_1010_0100 = .ok (.addReg 3 10) ∧
    decode 0b1000_0011_1010_0101 = .ok (.subReg 3 10) ∧ decode 0b1000_0011_1010_0110 = .ok (.shr 3 10) ∧
    decode 0b1000_0011_1010_0111 = .ok (.subnReg 3 10) ∧ decode 0b1000_0011_1010_1110 = .ok (.shl 3 10) := by decide

theorem test_decode_index_and_memory :
    decode 0b1010_1010_0011_1100 = .ok (.ldI 0xA3C) ∧ decode 0b1111_1100_0001_1110 = .ok (.addI 12) ∧
    decode 0b1111_1100_0010_1001 = .ok (.ldF 12) ∧ decode 0b1111_1100_0011_0011 = .ok (.ldB 12) ∧
    decode 0b1111_1100_0101_0101 = .ok (.storeRegs 12) ∧ decode 0b1111_1100_0110_0101 = .ok (.loadRegs 12) := by decide

theorem test_decode_timers_and_keys :
    decode 0b1111_1100_0000_0111 = .ok (.ldVxDT 12) ∧ decode 0b1111_1100_0000_1010 = .ok (.ldVxK 12) ∧
    decode 0b1111_1100_0001_0101 = .ok (.ldDTVx 12) ∧ decode 0b1111_1100_0001_1000 = .ok (.ldSTVx 12) := by decide

/-- E1 to E6: the no-op words, each rejected by the name of its class. -/
theorem test_decode_unrecognized :
    [0x0000, 0x01E0, 0x00E1, 0x0123].all (fun w => decode w = .error .class0) = true ∧
    [0x8008, 0x8009, 0x800A, 0x800B, 0x800C, 0x800D, 0x800F].all (fun w => decode w = .error .class8) = true ∧
    [0xE000, 0xE19F].all (fun w => decode w = .error .classE) = true ∧
    [0xF000, 0xF1FF, 0xF10B].all (fun w => decode w = .error .classF) = true := by decide

theorem test_table_word_is_big_endian :
    decodeTableWord 16 0x220A = some (.call 0x20A) ∧ decodeTableWord 16 0x0000 = none ∧
    (start.withFetchWord 16 0x220A).memRead 0x200 = 0x22 ∧ (start.withFetchWord 16 0x220A).memRead 0x201 = 0x0A := by
  decide

/-- P3 and P1 (L3): lines of the programs, in the spec's own spelling. -/
theorem test_assembler_text :
    Instr.text (.drw 0 1 5) = "DRW V0, V1, 5" ∧ Instr.text (.ldF 2) = "LD F, V2" ∧
    Instr.text (.jp 0x204) = "JP 0x204" ∧ Instr.text (.addByte 0 0xFF) = "ADD V0, 0xFF" ∧ Instr.text .ret = "RET" := by
  decide

/-- P2 (L3): its image from its lines. -/
theorem test_P2_image :
    assemble ([.ldByte 10 0x9C, .ldI 0x300, .call 0x20A, .loadRegs 2, .jp 0x208, .ldB 10, .ret].map .instr) =
      [0x6A, 0x9C, 0xA3, 0x00, 0x22, 0x0A, 0xF2, 0x65, 0x12, 0x08, 0xFA, 0x33, 0x00, 0xEE] := by decide

/-! ### The step guard (L2.1) -/

/-- E1: the only effect of a no-op is the pre-advance. -/
theorem test_E1_noop : step start = .next (start.setPc 0x202) := by rfl

/-- E10: the last word that executes is the one at 0xFFE. -/
theorem test_E10_last_word : runs (start.setPc 0xFFE) 0x6001 (fun t => t.getV 0 == 1 && t.pc == 0x1000) = true := by
  decide

/-- E13: at 0xFFF a STEP changes nothing. -/
theorem test_E13_halted : step (start.setPc 0xFFF) = .next (start.setPc 0xFFF) := by rfl

/-- E14: an odd `pc` is not checked. -/
theorem test_E14_odd_pc : runs (start.setPc 0x201) 0x6007 (fun t => t.getV 0 == 7 && t.pc == 0x203) = true := by decide

/-! ### Control flow (L2.2) -/

theorem test_C1_ret :
    runs ((calls [0x206] (by decide) start).setPc 0x20C) 0x00EE
      (fun t => t.sp == 0 && t.pc == 0x206 && t.stack[0] == 0x206) = true := by decide

theorem test_C2_ret_on_an_empty_stack :
    runs start 0x00EE (fun t => t.fault == some ⟨.stackUnderflow, 0x200, 0x00EE⟩ && t.pc == 0x200 && t.sp == 0 &&
      getStatus t == .faulted ⟨.stackUnderflow, 0x200, 0x00EE⟩) = true := by decide

theorem test_C3_ret_ignored :
    runs (ignoring start) 0x00EE (fun t => t.fault == none && t.pc == 0x202 && t.sp == 0) = true := by decide

theorem test_cause_codes : FaultCause.code .stackOverflow = 1 ∧ FaultCause.code .stackUnderflow = 2 := by decide

theorem test_C4_jp : runs (start.setPc 0x20A) 0x1204 (fun t => t.pc == 0x204) = true := by decide

theorem test_C5_call :
    runs (start.setPc 0x204) 0x220A (fun t => t.stack[0] == 0x206 && t.sp == 1 && t.pc == 0x20A) = true := by decide

theorem test_C6_call_on_a_full_stack :
    runs fullStack 0x2300 (fun t => t.fault == some ⟨.stackOverflow, 0x200, 0x2300⟩ && t.pc == 0x200 && t.sp == 16 &&
      t.stack == fullStack.stack) = true := by decide

theorem test_C7_call_ignored :
    runs (ignoring fullStack) 0x2300 (fun t => t.fault == none && t.pc == 0x300 && t.sp == 16 &&
      t.stack == fullStack.stack) = true := by decide

theorem test_C9_C10_se_byte :
    runs (regs [(3, 0x10)] start) 0x3310 (fun t => t.pc == 0x204) = true ∧
    runs (regs [(3, 0x10)] start) 0x3311 (fun t => t.pc == 0x202) = true := by decide

theorem test_C11_C12_sne_byte :
    runs (regs [(3, 0x10)] start) 0x4311 (fun t => t.pc == 0x204) = true ∧
    runs (regs [(3, 0x10)] start) 0x4310 (fun t => t.pc == 0x202) = true := by decide

/-- C13, C14, and E7 for the ignored `n`. -/
theorem test_C13_C14_E7_se_reg :
    runs (regs [(1, 7), (2, 7)] start) 0x5120 (fun t => t.pc == 0x204) = true ∧
    runs (regs [(1, 7), (2, 8)] start) 0x5120 (fun t => t.pc == 0x202) = true ∧
    runs (regs [(1, 3), (2, 3)] start) 0x5121 (fun t => t.pc == 0x204) = true := by decide

/-- C15, C16, and E8 for the ignored `n`. -/
theorem test_C15_C16_E8_sne_reg :
    runs (regs [(1, 7), (2, 8)] start) 0x9120 (fun t => t.pc == 0x204) = true ∧
    runs (regs [(1, 7), (2, 7)] start) 0x9120 (fun t => t.pc == 0x202) = true ∧
    runs (regs [(1, 1), (2, 2)] start) 0x912F (fun t => t.pc == 0x204) = true := by decide

/-- C18 and C21: the largest `pc` there is. -/
theorem test_C18_C21_jp_v0 :
    runs (regs [(0, 4)] start) 0xB300 (fun t => t.pc == 0x304) = true ∧
    runs (regs [(0, 0xFF)] start) 0xBFFF (fun t => t.pc == 0x10FE && getStatus t == .halted) = true := by decide

/-! ### The ALU (L2.3) -/

theorem test_A1_ld_byte : runs start 0x6A9C (fun t => t.getV 10 == 0x9C && t.pc == 0x202) = true := by decide

theorem test_A2_A3_add_byte :
    runs (regs [(1, 0xFF), (15, 0x77)] start) 0x71FF (fun t => t.getV 1 == 0xFE && t.getV 15 == 0x77) = true ∧
    runs (regs [(15, 0xFF)] start) 0x7F01 (fun t => t.getV 15 == 0) = true := by decide

theorem test_A4_ld_reg : runs (regs [(2, 0x33)] start) 0x8120 (fun t => t.getV 1 == 0x33) = true := by decide

theorem test_A5_or :
    runs (regs [(1, 0xF0), (2, 0x0F), (15, 0x55)] start) 0x8121 (fun t => t.getV 1 == 0xFF && t.getV 15 == 0x55) = true := by
  decide

theorem test_A6_and :
    runs (regs [(1, 0xF3), (2, 0x3F), (15, 0x55)] start) 0x8122 (fun t => t.getV 1 == 0x33 && t.getV 15 == 0x55) = true := by
  decide

theorem test_A7_xor :
    runs (regs [(1, 0xFF), (2, 0x0F), (15, 0x55)] start) 0x8123 (fun t => t.getV 1 == 0xF0 && t.getV 15 == 0x55) = true := by
  decide

theorem test_A9_add : runs (regs [(1, 0xC8), (2, 0x64)] start) 0x8124 (fun t => t.getV 1 == 0x2C && t.getV 15 == 1) = true := by
  decide

/-- A11 and A12: the flag is written last, after the sum was formed from the old VF. -/
theorem test_A11_A12_add_with_vf :
    runs (regs [(1, 0xFF), (15, 1)] start) 0x81F4 (fun t => t.getV 1 == 0 && t.getV 15 == 1) = true ∧
    runs (regs [(15, 0xFF), (1, 2)] start) 0x8F14 (fun t => t.getV 1 == 2 && t.getV 15 == 1) = true := by decide

/-- A13, and L1.2 for the borrow. -/
theorem test_A13_sub :
    runs (regs [(1, 0x10), (2, 1)] start) 0x8125 (fun t => t.getV 1 == 0x0F && t.getV 15 == 1) = true ∧
    runs (regs [(1, 0), (2, 1)] start) 0x8125 (fun t => t.getV 1 == 0xFF && t.getV 15 == 0) = true := by decide

/-- A15, A16, A17: the flag is written first. -/
theorem test_A15_A16_A17_sub_with_vf :
    runs (regs [(15, 5), (1, 3)] start) 0x8F15 (fun t => t.getV 1 == 3 && t.getV 15 == 0xFE) = true ∧
    runs (regs [(1, 5), (15, 3)] start) 0x81F5 (fun t => t.getV 1 == 4 && t.getV 15 == 1) = true ∧
    runs (regs [(15, 9)] start) 0x8FF5 (fun t => t.getV 15 == 0) = true := by decide

theorem test_A19_A21_shr :
    runs (regs [(1, 0xFF)] start) 0x8106 (fun t => t.getV 1 == 0x7F && t.getV 15 == 1) = true ∧
    runs (regs [(1, 4), (5, 0xFF)] start) 0x8156 (fun t => t.getV 1 == 2 && t.getV 5 == 0xFF && t.getV 15 == 0) = true := by
  decide

theorem test_A22_shr_vf : runs (regs [(15, 3)] start) 0x8F06 (fun t => t.getV 15 == 0) = true := by decide

theorem test_A23_A24_subn :
    runs (regs [(1, 1), (2, 0x10)] start) 0x8127 (fun t => t.getV 1 == 0x0F && t.getV 15 == 1) = true ∧
    runs (regs [(1, 1)] start) 0x8127 (fun t => t.getV 1 == 0xFF && t.getV 15 == 0) = true := by decide

theorem test_A26_A27_A28_subn_with_vf :
    runs (regs [(15, 3), (1, 5)] start) 0x8F17 (fun t => t.getV 1 == 5 && t.getV 15 == 4) = true ∧
    runs (regs [(1, 3), (15, 5)] start) 0x81F7 (fun t => t.getV 1 == 0xFE && t.getV 15 == 1) = true ∧
    runs (regs [(15, 9)] start) 0x8FF7 (fun t => t.getV 15 == 0) = true := by decide

theorem test_A29_A31_shl :
    runs (regs [(1, 0x81)] start) 0x810E (fun t => t.getV 1 == 2 && t.getV 15 == 1) = true ∧
    runs (regs [(1, 0x7F)] start) 0x810E (fun t => t.getV 1 == 0xFE && t.getV 15 == 0) = true := by decide

theorem test_A32_shl_vf : runs (regs [(15, 0x81)] start) 0x8F0E (fun t => t.getV 15 == 2) = true := by decide

/-- A34, A36: the result is `rnd` under the mask. -/
theorem test_A34_A36_rnd :
    runs (start.setRndPort (some 0xA5)) 0xC10F (fun t => t.getV 1 == 5 && t.pc == 0x202) = true ∧
    runs (start.setRndPort (some 0xA5)) 0xC100 (fun t => t.getV 1 == 0) = true := by decide

/-! ### Index and memory (L2.4) -/

theorem test_M1_ld_i : runs start 0xA123 (fun t => t.i == 0x123) = true := by decide

theorem test_M2_M3_add_i :
    runs (regs [(2, 3), (15, 9)] (start.setI 0xFFE)) 0xF21E (fun t => t.i == 0x1001 && t.getV 15 == 9) = true ∧
    runs (regs [(3, 2)] (start.setI 0xFFFF)) 0xF31E (fun t => t.i == 1) = true := by decide

theorem test_M4_M6_ld_f :
    runs (regs [(5, 0x0F)] start) 0xF529 (fun t => t.i == 75) = true ∧
    runs (regs [(5, 0xFF)] start) 0xF529 (fun t => t.i == 1275) = true := by decide

theorem test_M7_ld_b :
    runs (regs [(1, 156)] (start.setI 0x300)) 0xF133
      (fun t => t.memRead 0x300 == 1 && t.memRead 0x301 == 5 && t.memRead 0x302 == 6 && t.i == 0x300) = true := by decide

theorem test_M10_ld_b_wraps :
    runs (regs [(1, 255)] (start.setI 0xFFE)) 0xF133
      (fun t => t.memRead 0xFFE == 2 && t.memRead 0xFFF == 5 && t.memRead 0 == 5 && t.i == 0xFFE) = true := by decide

theorem test_M11_store_wraps :
    runs (regs [(0, 0xAA), (1, 0xBB), (2, 0xCC)] (start.setI 0xFFF)) 0xF255
      (fun t => t.memRead 0xFFF == 0xAA && t.memRead 0 == 0xBB && t.memRead 1 == 0xCC && t.memRead 2 == 0x90 &&
        t.i == 0xFFF) = true := by decide

theorem test_M12_store_all :
    runs (regs ((List.finRange 16).map (fun r => (r, BitVec.ofNat 8 (r.val + 1)))) (start.setI 0x300)) 0xFF55
      (fun t => (List.range 16).all (fun k => t.memRead (0x300 + k) == BitVec.ofNat 8 (k + 1))) = true := by decide

theorem test_M14_load_wraps : runs (start.setI 0x1001) 0xF065 (fun t => t.getV 0 == 0x90) = true := by decide

theorem test_M15_load :
    runs (regs [(3, 0x44)] (bytes 0x300 [1, 5, 6, 7] (start.setI 0x300))) 0xF265
      (fun t => t.getV 0 == 1 && t.getV 1 == 5 && t.getV 2 == 6 && t.getV 3 == 0x44 && t.i == 0x300) = true := by decide

/-! ### Display (L2.5) -/

theorem test_D1_cls :
    runs (regs [(15, 7)] (start.setVideo (rows [(0, 0xFF), (31, 1)]))) 0x00E0
      (fun t => t.video == Video.clear && t.getV 15 == 7) = true := by decide

/-- D2: both axes wrap; columns 60 to 63 and 0 to 3 in rows 30 and 0, columns 60 and 3 in row 31. -/
theorem test_D2_drw_wraps :
    runs (regs [(0, 60), (1, 30)] (bytes 0x300 [0xFF, 0x81, 0xFF] (start.setI 0x300))) 0xD013
      (fun t => t.video == rows [(30, 0xF00000000000000F), (31, 0x1000000000000008), (0, 0xF00000000000000F)] &&
        t.getV 15 == 0) = true := by decide

/-- D4: a collision; D6: the column is the old VF. -/
theorem test_D4_D6_drw_and_vf :
    runs (regs [(15, 7)] (bytes 0x300 [0xC0] ((start.setI 0x300).setVideo (rows [(0, 1)])))) 0xD011
      (fun t => t.video == rows [(0, 2)] && t.getV 15 == 1) = true ∧
    runs (regs [(15, 2), (1, 3)] (bytes 0x300 [0x80] (start.setI 0x300))) 0xDF11
      (fun t => t.video == rows [(3, 4)] && t.getV 15 == 0) = true := by decide

theorem test_pixel_numbering :
    Video.index (rows [(3, 4)]) 194 = true ∧ Video.pixel (rows [(3, 4)]) 2 3 = true ∧
    Video.index (rows [(3, 4)]) 131 = false := by decide

/-! ### Keys and timers (L2.6) -/

/-- K1, K2, and K5 for a register value above 15. -/
theorem test_K1_K2_K5_skp :
    runs (regs [(2, 5)] (start.setKey 5 true)) 0xE29E (fun t => t.pc == 0x204) = true ∧
    runs (regs [(2, 5)] start) 0xE29E (fun t => t.pc == 0x202) = true ∧
    runs (regs [(2, 0x15)] (start.setKey 5 true)) 0xE29E (fun t => t.pc == 0x204) = true := by decide

theorem test_K3_K4_sknp :
    runs (regs [(2, 5)] (start.setKey 5 true)) 0xE2A1 (fun t => t.pc == 0x202) = true ∧
    runs (regs [(2, 5)] start) 0xE2A1 (fun t => t.pc == 0x204) = true := by decide

theorem test_K6_ld_vx_dt : runs (start.setDT 0x3C) 0xF307 (fun t => t.getV 3 == 0x3C) = true := by decide

theorem test_K7_K8_wait_for_a_key :
    runs ((start.setKey 5 true).setKey 3 true) 0xF00A (fun t => t.getV 0 == 3 && t.pc == 0x202) = true ∧
    runs (regs [(0, 9)] start) 0xF00A (fun t => t.getV 0 == 9 && t.pc == 0x200) = true := by decide

theorem test_K11_ld_dt : runs (regs [(0, 3)] start) 0xF015 (fun t => t.dt == 3) = true := by decide

theorem test_K12_ld_st : runs (regs [(1, 2)] start) 0xF118 (fun t => t.st == 2 && soundActive t) = true := by decide

/-- K13, K14. -/
theorem test_K13_K14_tick :
    (tick start).dt = 0 ∧ (tick start).st = 0 ∧
    (tick ((start.setDT 255).setST 1)).dt = 254 ∧ (tick ((start.setDT 255).setST 1)).st = 0 := by decide

/-! ### LOAD (L2.7) -/

/-- The font and the image: R53, and the first glyph byte of the default FONT. -/
theorem test_load_installs_font_and_image :
    (start.loaded [0x60, 0x05]).memRead 0 = 0xF0 ∧ (start.loaded [0x60, 0x05]).memRead 79 = 0x80 ∧
    (start.loaded [0x60, 0x05]).memRead 80 = 0 ∧ (start.loaded [0x60, 0x05]).memRead 512 = 0x60 ∧
    (start.loaded [0x60, 0x05]).memRead 513 = 5 ∧ (start.loaded [0x60, 0x05]).pc = 0x200 := by decide

/-- L1.7: LOAD `[60 0A]`, then one STEP. -/
theorem test_L1_7 : okAnd (step (State.reset.loaded [0x60, 0x0A])) (fun t => t.getV 0 == 10 && t.pc == 514) = true := by
  decide

/-- R5: LOAD clears a register, a key, a timer, the screen and a fault. -/
theorem test_R5_load_clears :
    load (some [0x60, 0x05]) (regs [(3, 9)] { ((start.setKey 2 true).setDT 4).setVideo (rows [(1, 1)]) with
      fault := some ⟨.stackUnderflow, 0x200, 0x00EE⟩ }) = (State.reset.loaded [0x60, 0x05], .success) := by rfl

/-- R6: a failed LOAD leaves a fault as it is. -/
theorem test_R6_failed_load :
    load none (start.raise .stackUnderflow 0x00EE) = (start.raise .stackUnderflow 0x00EE, .failure) := by rfl

/-! ### Witnesses: states and operands that meet the hypotheses of the obligations -/

/-- A core with a fault recorded, as a call on a full stack leaves it. -/
def faulted : State := { fullStack.withFetchWord 16 0x2300 with fault := some ⟨.stackOverflow, 0x200, 0x2300⟩ }

/-- A running state at the last address that executes, with `LD V0, 1` there. -/
def atTheEnd : State := (start.setPc 4094).withFetchWord 16 0x6001

theorem witness_decoded_words : decode 0x6001 = .ok (.ldByte 0 1) ∧ decode 0xFFFF = .error .classF := by decide

theorem witness_rows : ∃ row ∈ opcodeTable, row.matches 0x8FFE = true := by decide

theorem witness_step_runs :
    start.Running ∧ atTheEnd.Running ∧ atTheEnd.pc.toNat + 1 = 4095 ∧
    decode (BitVec.ofNat 16 ((atTheEnd.mem.read atTheEnd.pc.toNat).toNat * 256 +
      (atTheEnd.mem.read (atTheEnd.pc.toNat + 1)).toNat)) = .ok (.ldByte 0 1) := by
  refine ⟨⟨rfl, by decide⟩, ⟨rfl, by decide⟩, by decide, by decide⟩

theorem witness_step_passes_over : start.Running ∧ ∀ i, decode start.fetchWord ≠ .ok i := by
  have h : decode start.fetchWord = .error .class0 := by decide
  exact ⟨⟨rfl, by decide⟩, fun i => by simp [h]⟩

theorem witness_quiescent : (start.setPc 4095).Quiescent ∧ faulted.Quiescent ∧ faulted.pc.toNat + 1 ≤ 4095 :=
  ⟨.inl (by decide), .inr (by decide), by decide⟩

/-- The invariant holds after a LOAD, and a step leaves that state. -/
theorem witness_invariant_running : start.Inv ∧ ∃ t, step start = .next t ∧ t ≠ start :=
  ⟨⟨by decide, by decide, by decide, fun r h => by cases h⟩, _, rfl, by decide⟩

/-- The invariant holds in a faulted state, and with the largest `pc`. -/
theorem witness_invariant_at_the_bounds : faulted.Inv ∧ (start.setPc 0x10FE).Inv := by
  refine ⟨⟨by decide, by decide, by decide, fun r h => ?_⟩, ⟨by decide, by decide, by decide, fun r h => by cases h⟩⟩
  obtain rfl : _ = r := Option.some.inj h
  exact ⟨rfl, rfl, by decide, by decide, fun _ => ⟨rfl, 0x300, by decide⟩, fun h => by cases h⟩

theorem witness_transaction : ∃ t r, start.Inv ∧ transact (.load (some [0x60])) start = .next (t, r) ∧ t ≠ start :=
  ⟨_, _, witness_invariant_running.1, rfl, by decide⟩

/-- Canonical memories: the empty one, and one that reaches the first and the last cell. -/
theorem witness_canonical_memory :
    Memory.wf [] = true ∧ Memory.wf [(0, 1), (4095, 2)] = true ∧ Memory.wf [(0, 0)] = false ∧
    Memory.wf [(1, 1), (0, 1)] = false ∧ Memory.wf [(4096, 1)] = false := by decide

theorem witness_memories_read_alike :
    ∃ m : Memory, m.wf = true ∧ (Memory.write (Memory.write [(7, 9)] 7 0) 7 9).wf = true ∧
      ∀ a, m.read a = (Memory.write (Memory.write [(7, 9)] 7 0) 7 9).read a :=
  ⟨[(7, 9)], by decide, by decide, fun _ => rfl⟩

/-- A register write, a store and a draw answer a next state from a canonical memory. -/
theorem witness_frames :
    start.mem.wf = true ∧ (∃ t, exec (.ldByte 3 0x55) start = .next t ∧ t ≠ start) ∧
    (∃ t, exec (.storeRegs 15) (regs [(0, 1)] (start.setI 0xFFF)) = .next t ∧ t.memRead 0xFFF = 1) ∧
    (∃ t, exec (.drw 0 1 15) start = .next t ∧ t ≠ start) :=
  ⟨by decide, ⟨_, rfl, by decide⟩, ⟨_, rfl, by decide⟩, ⟨_, rfl, by decide⟩⟩

/-- For the statements on ST, the screen and `rnd`: an instruction of each clause, and its answer. -/
theorem witness_unread_parts :
    (∃ t, exec (.ldSTVx 3) start = .next t) ∧ (∃ t, exec (.ldDTVx 3) start = .next t) ∧
    (∃ t, exec .cls start = .next t) ∧ (∃ t, exec (.call 0x300) start = .next t) ∧
    (∀ (x y : Reg) (n : Nibble), Instr.cls ≠ .drw x y n) ∧ (∀ (x : Reg) (kk : Byte), Instr.cls ≠ .rnd x kk) :=
  ⟨⟨_, rfl⟩, ⟨_, rfl⟩, ⟨_, rfl⟩, ⟨_, rfl⟩, by simp, by simp⟩

/-- Stacks that differ only at and above SP, with SP in the middle, and a call and a return there. -/
theorem witness_stale_slots :
    ∃ (s : State) (other : Vector Word 16), s.sp.val = 1 ∧ other ≠ s.stack ∧
      (∀ k : Fin 16, k.val < s.sp.val → other[k] = s.stack[k]) ∧
      (∃ t, exec (.call 0x300) s = .next t) ∧ ∃ t, exec .ret s = .next t :=
  ⟨calls [0x206] (by decide) start, (calls [0x206, 7] (by decide) start).stack, rfl, by decide, by decide, ⟨_, rfl⟩, _, rfl⟩

/-- Free slots 0 and 15, and a full stack under each policy. -/
theorem witness_calls :
    start.sp.val = (0 : Fin 16).val ∧ (calls (List.replicate 15 7) (by decide) start).sp.val = (15 : Fin 16).val ∧
    fullStack.sp = 16 ∧ fullStack.cfg.stackPolicy = .fault ∧
    (ignoring fullStack).sp = 16 ∧ (ignoring fullStack).cfg.stackPolicy = .ignore := by decide

/-- Slots 0 and 15 in use, and an empty stack under each policy. -/
theorem witness_returns :
    (calls [0x206] (by decide) start).sp.val = (0 : Fin 16).val + 1 ∧ fullStack.sp.val = (15 : Fin 16).val + 1 ∧
    start.sp = 0 ∧ start.cfg.stackPolicy = .fault ∧
    (ignoring start).sp = 0 ∧ (ignoring start).cfg.stackPolicy = .ignore := by decide

/-- 16 calls from an empty stack, one from 15 in use, and none from a full one. -/
theorem witness_nested_calls :
    start.sp.val + (List.replicate 16 ((0x206, 0x300) : Word × Addr12)).length ≤ 16 ∧
    (calls (List.replicate 15 7) (by decide) start).sp.val + [((0x206, 0x300) : Word × Addr12)].length ≤ 16 ∧
    fullStack.sp.val + ([] : List (Word × Addr12)).length ≤ 16 := by decide

/-- Each clause on VF as an operand of a subtract, a draw and a shift has registers that meet it. -/
theorem witness_flag_operands :
    (1 : Reg) ≠ VF ∧ (2 : Reg) ≠ VF ∧ (VF : Reg) = VF ∧
    (∃ flag : Nat, flag = (if (start.getV 1).toNat ≥ (start.getV 2).toNat then 1 else 0)) := by
  refine ⟨by decide, by decide, rfl, _, rfl⟩

/-- A given `rnd`, a mask with a 0 bit, and a byte under the mask. -/
theorem witness_random_byte :
    (start.setRndPort (some 0xA5)).rndPort = some 0xA5 ∧ (0x0F : Byte).getLsbD 4 = false ∧
    (∀ k, (0x05 : Byte).getLsbD k = true → (0x0F : Byte).getLsbD k = true) := by
  refine ⟨rfl, by decide, fun k h => ?_⟩
  rcases Nat.lt_or_ge k 8 with hk | hk
  · interval_cases k <;> revert h <;> decide
  · simp [BitVec.getLsbD_of_ge _ _ hk] at h

/-- A pixel under a sprite that is set, one that is not set, and one outside it (D4). -/
theorem witness_sprite :
    let s := bytes 0x300 [0xC0] ((start.setI 0x300).setVideo (rows [(0, 1)]))
    SpriteCovers s 0 1 1 0 0 ∧ s.video.pixel 0 0 = true ∧ SpriteCovers s 0 1 1 1 0 ∧ s.video.pixel 1 0 = false ∧
    ¬ SpriteCovers s 0 1 1 5 5 := by
  refine ⟨⟨0, 0, by decide, by decide, by decide, by decide, by decide⟩, by decide,
    ⟨0, 1, by decide, by decide, by decide, by decide, by decide⟩, by decide, ?_⟩
  rintro ⟨r, c, hr, -, -, -, hy⟩
  have hr : r = 0 := by simpa using hr
  subst hr
  revert hy
  decide

/-- A sprite none of whose pixels is set: the sprite of no rows, on any screen. -/
theorem witness_no_collision (s : State) (x y : Reg) :
    ∀ px py, SpriteCovers s x y 0 px py → s.video.pixel px py = false := by
  rintro px py ⟨r, c, hr, -⟩
  exact absurd hr (by simp)

/-- A draw that leaves both coordinates as they were, from a blank screen, of some rows and of none. -/
theorem witness_draw_twice :
    (∃ t, exec (.drw 0 1 5) start = .next t ∧ t.getV 0 = start.getV 0 ∧ t.getV 1 = start.getV 1 ∧
      start.video = Video.clear ∧ t.video ≠ start.video) ∧ ∃ t, exec (.drw 0 1 0) start = .next t :=
  ⟨⟨_, rfl, by decide, by decide, rfl, by decide⟩, _, rfl⟩

/-- Keys: the key a register names, the lowest key down (0 and 15), and no key down. -/
theorem witness_keys :
    (5 : Fin 16).val = ((regs [(2, 0x15)] start).getV 2).toNat % 16 ∧
    ((start.setKey 15 true).getKey 15 = true ∧ ∀ j < 15, (start.setKey 15 true).getKey j = false) ∧
    ((start.setKey 0 true).getKey 0 = true ∧ ∀ j < 0, (start.setKey 0 true).getKey j = false) ∧
    (∀ k, start.getKey k = false) := by decide

/-- A running core that waits for a key with none down. -/
theorem witness_waiting :
    (start.withFetchWord 16 0xF00A).Running ∧ decode (start.withFetchWord 16 0xF00A).fetchWord = .ok (.ldVxK 0) ∧
    ∀ k, (start.withFetchWord 16 0xF00A).getKey k = false :=
  ⟨⟨rfl, by decide⟩, by decide, by decide⟩

/-- A call and a return that raise. -/
theorem witness_raising :
    (∃ t r, exec (.call 0x300) fullStack = .next t ∧ fullStack.fault = none ∧ t.fault = some r) ∧
    ∃ t r, exec .ret start = .next t ∧ start.fault = none ∧ t.fault = some r :=
  ⟨⟨_, _, rfl, rfl, rfl⟩, _, _, rfl, rfl, rfl⟩

/-- A faulted core under a STEP, under a LOAD that fails and under one that succeeds. -/
theorem witness_recorded_fault :
    (∃ r, faulted.fault = some r) ∧ (∃ t, transact (.step 0) faulted = .next (t, .done)) ∧
    (∃ t, transact (.load none) faulted = .next (t, .loadResult .failure)) ∧
    ∃ t, transact (.load (some [])) faulted = .next (t, .loadResult .success) :=
  ⟨⟨_, rfl⟩, ⟨_, rfl⟩, ⟨_, rfl⟩, _, rfl⟩

/-- Images at the bounds: none, 3584 bytes, 3585 bytes. -/
theorem witness_images :
    ([] : List Byte).length ≤ 3584 ∧ (List.replicate 3584 (0xAB : Byte)).length ≤ 3584 ∧
    3584 < (List.replicate 3585 (0xAB : Byte)).length :=
  ⟨by decide, Nat.le_of_eq List.length_replicate, Nat.lt_of_lt_of_eq (by decide) List.length_replicate.symm⟩

/-- A state without a driven `rnd` whose step runs RND. -/
theorem witness_free_random_byte :
    (start.withFetchWord 16 0xC10F).rndPort = none ∧ decode (start.withFetchWord 16 0xC10F).fetchWord = .ok (.rnd 1 0x0F) ∧
    ∃ t, step (start.withFetchWord 16 0xC10F) = .next t :=
  ⟨rfl, by decide, _, rfl⟩

/-- STEP(rnd) of a running core whose word is RND; 0xA5 under 0x0F is 5 (A34). -/
theorem witness_step_with_a_given_byte :
    (start.withFetchWord 16 0xC10F).Running ∧ (∃ t, step { start.withFetchWord 16 0xC10F with rndPort := some 0xA5 } = .next t) ∧
    ∃ t, transact (.step 0xA5) (start.withFetchWord 16 0xC10F) = .next (t, .done) ∧ t.getV 1 = 5 ∧ t.rndPort = none :=
  ⟨⟨rfl, by decide⟩, ⟨_, rfl⟩, _, rfl, by decide, rfl⟩

/-- Transactions that are no SET_KEY and no successful LOAD, with a key down; and a LOAD that succeeds. -/
theorem witness_keys_kept :
    (∀ k pressed, Transaction.tick ≠ .setKey k pressed) ∧ (∀ k pressed, Transaction.load none ≠ .setKey k pressed) ∧
    transact .tick (start.setKey 7 true) = .next (start.setKey 7 true, .done) ∧
    transact (.load none) (start.setKey 7 true) = .next (start.setKey 7 true, .loadResult .failure) ∧
    transact (.load (some [])) (start.setKey 7 true) = .next (start, .loadResult .success) :=
  ⟨by simp, by simp, rfl, rfl, rfl⟩

/-- Registers stored, with others in between, and the unlisted bytes of a store. -/
theorem witness_stored_registers :
    (regs [(0, 1)] (start.setI 0xFFF)).mem.wf = true ∧
    (∃ t, exec (.storeRegs 15) (regs [(0, 1)] (start.setI 0xFFF)) = .next t) ∧ (15 : Reg) ≤ 15 ∧ (0 : Reg) ≤ 0 :=
  ⟨by decide, ⟨_, rfl⟩, by decide, by decide⟩

end Sys2Proof.Tests
end

section
/-! The encoding (`30_encoding.md`): the round trip of words and instructions, and the decoder beside the mask and
match table. A row fixes the class digit and, by its mask, one sub-key; a word that matches it is therefore the
encoding of an instruction of that row, and the round trip says that the word decodes to it. -/

namespace Sys2Proof

/-! ### The round trip -/

theorem decode_encode : ∀ i : Instr, decode (encode i) = .ok i
  | .cls => Laws.RoundTrip.cls
  | .ret => Laws.RoundTrip.ret
  | .jp nnn => Laws.RoundTrip.jp nnn
  | .call nnn => Laws.RoundTrip.call nnn
  | .seByte x kk => Laws.RoundTrip.seByte x kk
  | .sneByte x kk => Laws.RoundTrip.sneByte x kk
  | .seReg x y n => Laws.RoundTrip.seReg x y n
  | .ldByte x kk => Laws.RoundTrip.ldByte x kk
  | .addByte x kk => Laws.RoundTrip.addByte x kk
  | .ldReg x y => Laws.RoundTrip.ldReg x y
  | .orReg x y => Laws.RoundTrip.orReg x y
  | .andReg x y => Laws.RoundTrip.andReg x y
  | .xorReg x y => Laws.RoundTrip.xorReg x y
  | .addReg x y => Laws.RoundTrip.addReg x y
  | .subReg x y => Laws.RoundTrip.subReg x y
  | .shr x y => Laws.RoundTrip.shr x y
  | .subnReg x y => Laws.RoundTrip.subnReg x y
  | .shl x y => Laws.RoundTrip.shl x y
  | .sneReg x y n => Laws.RoundTrip.sneReg x y n
  | .ldI nnn => Laws.RoundTrip.ldI nnn
  | .jpV0 nnn => Laws.RoundTrip.jpV0 nnn
  | .rnd x kk => Laws.RoundTrip.rnd x kk
  | .drw x y n => Laws.RoundTrip.drw x y n
  | .skp x => Laws.RoundTrip.skp x
  | .sknp x => Laws.RoundTrip.sknp x
  | .ldVxDT x => Laws.RoundTrip.ldVxDT x
  | .ldVxK x => Laws.RoundTrip.ldVxK x
  | .ldDTVx x => Laws.RoundTrip.ldDTVx x
  | .ldSTVx x => Laws.RoundTrip.ldSTVx x
  | .addI x => Laws.RoundTrip.addI x
  | .ldF x => Laws.RoundTrip.ldF x
  | .ldB x => Laws.RoundTrip.ldB x
  | .storeRegs x => Laws.RoundTrip.storeRegs x
  | .loadRegs x => Laws.RoundTrip.loadRegs x

theorem encode_of_decode {w : Word} {i : Instr} (h : decode w = .ok i) : encode i = w := by
  obtain ⟨hc, hd⟩ | ⟨hc, hd⟩ | ⟨hc, hd⟩ | ⟨hc, hd⟩ | ⟨hc, hd⟩ | ⟨hc, hd⟩ | ⟨hc, hd⟩ | ⟨hc, hd⟩ | ⟨hc, hd⟩ | ⟨hc, hd⟩ |
    ⟨hc, hd⟩ | ⟨hc, hd⟩ | ⟨hc, hd⟩ | ⟨hc, hd⟩ | ⟨hc, hd⟩ | ⟨hc, hd⟩ := decode_cases w <;> rw [hd] at h
  · obtain ⟨rfl, rfl⟩ | ⟨rfl, rfl⟩ := decodeClass0_ok h <;> rfl
  · cases h; exact eq_encodeA hc
  · cases h; exact eq_encodeA hc
  · cases h; exact eq_encodeXK hc rfl
  · cases h; exact eq_encodeXK hc rfl
  · cases h; exact eq_encodeXY hc rfl
  · cases h; exact eq_encodeXK hc rfl
  · cases h; exact eq_encodeXK hc rfl
  · exact decodeClass8_ok hc h
  · cases h; exact eq_encodeXY hc rfl
  · cases h; exact eq_encodeA hc
  · cases h; exact eq_encodeA hc
  · cases h; exact eq_encodeXK hc rfl
  · cases h; exact eq_encodeXY hc rfl
  · exact decodeClassE_ok hc h
  · exact decodeClassF_ok hc h

/-! ### What a row's mask asks of a word -/

theorem matches_iff_toNat {w mask bits : Word} :
    (OpcodeRow.mk mask bits).matches w = true ↔ (w &&& mask).toNat = bits.toNat := by
  rw [BitVec.toNat_inj]
  exact beq_iff_eq

/-- The rows with mask FFFF ask for one word. -/
theorem matches_whole {w v : Word} : (OpcodeRow.mk 0xFFFF#16 v).matches w = true ↔ w = v := by
  rw [matches_iff_toNat, mask_whole, BitVec.toNat_inj]

/-- The rows with mask F000 ask for the class. -/
theorem matches_class {w : Word} {c : Nibble} :
    (OpcodeRow.mk 0xF000#16 (encodeA c 0#12)).matches w = true ↔ Fields.opClass w = c := by
  rw [matches_iff_toNat, toNat_mask_class, toNat_encodeA, BitVec.toNat_eq, toNat_opClass, BitVec.toNat_zero]
  omega

/-- The rows with mask F00F ask for the class and `n`. -/
theorem matches_class_n {w : Word} {c n : Nibble} :
    (OpcodeRow.mk 0xF00F#16 (encodeXYN c 0 0#4 n)).matches w = true ↔ Fields.opClass w = c ∧ Fields.n w = n := by
  rw [matches_iff_toNat, toNat_mask_class_n, toNat_encodeXYN, BitVec.toNat_eq, BitVec.toNat_eq, toNat_opClass, toNat_n,
    BitVec.toNat_zero, Fin.val_zero]
  omega

/-- The rows with mask F0FF ask for the class and `kk`. -/
theorem matches_class_kk {w : Word} {c : Nibble} {kk : Byte} :
    (OpcodeRow.mk 0xF0FF#16 (encodeXK c 0 kk)).matches w = true ↔ Fields.opClass w = c ∧ Fields.kk w = kk := by
  rw [matches_iff_toNat, toNat_mask_class_kk, toNat_encodeXK, BitVec.toNat_eq, BitVec.toNat_eq, toNat_opClass, toNat_kk,
    Fin.val_zero]
  omega

/-! ### The row of an instruction -/

theorem row_mem_opcodeTable (i : Instr) : i.row ∈ opcodeTable := by
  cases i <;> exact List.mem_of_elem_eq_true rfl

theorem row_matches_encode (i : Instr) : i.row.matches (encode i) = true := by
  cases i with
  | cls | ret => rfl
  | jp | call | ldI | jpV0 => exact matches_class.2 (opClass_encodeA ..)
  | seByte | sneByte | ldByte | addByte | rnd => exact matches_class.2 (opClass_encodeXK ..)
  | seReg | sneReg | drw => exact matches_class.2 (opClass_encodeXY ..)
  | ldReg | orReg | andReg | xorReg | addReg | subReg | subnReg =>
    exact matches_class_n.2 ⟨opClass_encodeXY .., n_encodeXY ..⟩
  | shr | shl => exact matches_class_n.2 ⟨opClass_encodeXYN .., n_encodeXYN ..⟩
  | skp | sknp | ldVxDT | ldVxK | ldDTVx | ldSTVx | addI | ldF | ldB | storeRegs | loadRegs =>
    exact matches_class_kk.2 ⟨opClass_encodeXK .., kk_encodeXK ..⟩

/-! ### The instruction of a row -/

theorem encodeXYN_of_matches {w : Word} {c n : Nibble}
    (h : (OpcodeRow.mk 0xF00F#16 (encodeXYN c 0 0#4 n)).matches w = true) :
    encodeXYN c (Fields.x w) (Fields.yBits w) n = w :=
  eq_encodeXYN (matches_class_n.1 h).1 (matches_class_n.1 h).2

theorem encodeXK_of_matches {w : Word} {c : Nibble} {kk : Byte}
    (h : (OpcodeRow.mk 0xF0FF#16 (encodeXK c 0 kk)).matches w = true) : encodeXK c (Fields.x w) kk = w :=
  eq_encodeXK (matches_class_kk.1 h).1 (matches_class_kk.1 h).2

open Fields in
/-- A word that matches a row is the encoding of an instruction of that row, whose operands are the word's fields. -/
theorem exists_encode_of_matches (w : Word) :
    ∀ row ∈ opcodeTable, row.matches w = true → ∃ i : Instr, encode i = w ∧ i.row = row := by
  simp only [opcodeTable, List.cons_append, List.nil_append, List.forall_mem_cons]
  exact ⟨
    fun h => ⟨.cls, (matches_whole.1 h).symm, rfl⟩,
    fun h => ⟨.ret, (matches_whole.1 h).symm, rfl⟩,
    fun h => ⟨.jp (nnn w), eq_encodeA (matches_class.1 h), rfl⟩,
    fun h => ⟨.call (nnn w), eq_encodeA (matches_class.1 h), rfl⟩,
    fun h => ⟨.seByte (x w) (kk w), eq_encodeXK (matches_class.1 h) rfl, rfl⟩,
    fun h => ⟨.sneByte (x w) (kk w), eq_encodeXK (matches_class.1 h) rfl, rfl⟩,
    fun h => ⟨.seReg (x w) (y w) (n w), eq_encodeXY (matches_class.1 h) rfl, rfl⟩,
    fun h => ⟨.ldByte (x w) (kk w), eq_encodeXK (matches_class.1 h) rfl, rfl⟩,
    fun h => ⟨.addByte (x w) (kk w), eq_encodeXK (matches_class.1 h) rfl, rfl⟩,
    fun h => ⟨.ldReg (x w) (y w), encodeXYN_of_matches h, rfl⟩,
    fun h => ⟨.orReg (x w) (y w), encodeXYN_of_matches h, rfl⟩,
    fun h => ⟨.andReg (x w) (y w), encodeXYN_of_matches h, rfl⟩,
    fun h => ⟨.xorReg (x w) (y w), encodeXYN_of_matches h, rfl⟩,
    fun h => ⟨.addReg (x w) (y w), encodeXYN_of_matches h, rfl⟩,
    fun h => ⟨.subReg (x w) (y w), encodeXYN_of_matches h, rfl⟩,
    fun h => ⟨.shr (x w) (yBits w), encodeXYN_of_matches h, rfl⟩,
    fun h => ⟨.subnReg (x w) (y w), encodeXYN_of_matches h, rfl⟩,
    fun h => ⟨.shl (x w) (yBits w), encodeXYN_of_matches h, rfl⟩,
    fun h => ⟨.sneReg (x w) (y w) (n w), eq_encodeXY (matches_class.1 h) rfl, rfl⟩,
    fun h => ⟨.ldI (nnn w), eq_encodeA (matches_class.1 h), rfl⟩,
    fun h => ⟨.jpV0 (nnn w), eq_encodeA (matches_class.1 h), rfl⟩,
    fun h => ⟨.rnd (x w) (kk w), eq_encodeXK (matches_class.1 h) rfl, rfl⟩,
    fun h => ⟨.drw (x w) (y w) (n w), eq_encodeXY (matches_class.1 h) rfl, rfl⟩,
    fun h => ⟨.skp (x w), encodeXK_of_matches h, rfl⟩,
    fun h => ⟨.sknp (x w), encodeXK_of_matches h, rfl⟩,
    fun h => ⟨.ldVxDT (x w), encodeXK_of_matches h, rfl⟩,
    fun h => ⟨.ldVxK (x w), encodeXK_of_matches h, rfl⟩,
    fun h => ⟨.ldDTVx (x w), encodeXK_of_matches h, rfl⟩,
    fun h => ⟨.ldSTVx (x w), encodeXK_of_matches h, rfl⟩,
    fun h => ⟨.addI (x w), encodeXK_of_matches h, rfl⟩,
    fun h => ⟨.ldF (x w), encodeXK_of_matches h, rfl⟩,
    fun h => ⟨.ldB (x w), encodeXK_of_matches h, rfl⟩,
    fun h => ⟨.storeRegs (x w), encodeXK_of_matches h, rfl⟩,
    fun h => ⟨.loadRegs (x w), encodeXK_of_matches h, rfl⟩,
    fun _ h => nomatch h⟩

/-! ### The decoder beside the table -/

theorem exists_decode_of_matches {w : Word} {row : OpcodeRow} (hr : row ∈ opcodeTable) (h : row.matches w = true) :
    ∃ i : Instr, decode w = .ok i ∧ i.row = row := by
  obtain ⟨i, rfl, hrow⟩ := exists_encode_of_matches w row hr h
  exact ⟨i, decode_encode i, hrow⟩

theorem row_matches_of_decode {w : Word} {i : Instr} (h : decode w = .ok i) : i.row.matches w = true :=
  encode_of_decode h ▸ row_matches_encode i

/-- Both rows are the row of the one instruction the word decodes to. -/
theorem row_unique {w : Word} {r₁ r₂ : OpcodeRow} (h₁ : r₁ ∈ opcodeTable) (h₂ : r₂ ∈ opcodeTable)
    (m₁ : r₁.matches w = true) (m₂ : r₂.matches w = true) : r₁ = r₂ := by
  obtain ⟨i, hi, rfl⟩ := exists_decode_of_matches h₁ m₁
  obtain ⟨j, hj, rfl⟩ := exists_decode_of_matches h₂ m₂
  rw [Except.ok.inj (hi.symm.trans hj)]

/-- Settles O3: a word that matches a row is the encoding of an instruction of that row, so it decodes to it, and so
no two rows match it. -/
theorem decoderAgreesWithTheOpcodeMap : Obligations.DecoderAgreesWithTheOpcodeMap := by
  unfold Obligations.DecoderAgreesWithTheOpcodeMap
  exact fun w => ⟨fun _ hr h => exists_decode_of_matches hr h,
    fun i h => ⟨row_mem_opcodeTable i, row_matches_of_decode h⟩,
    fun _ h₁ _ h₂ m₁ m₂ => row_unique h₁ h₂ m₁ m₂⟩

end Sys2Proof
end

section
/-! The fetch and the step (`40_cycle.md` R92 to R94). -/

namespace Sys2Proof.Machine

/-- The two bytes side by side, the first one high, in plain arithmetic (R92's big-endian word). -/
theorem toNat_wordOfBytes (b1 b2 : Byte) : (wordOfBytes b1 b2).toNat = b1.toNat * 256 + b2.toNat :=
  toNat_append_eq b1 b2

theorem fetchWord_eq_ofNat (s : State) :
    s.fetchWord =
      BitVec.ofNat 16 ((s.mem.read s.pc.toNat).toNat * 256 + (s.mem.read (s.pc.toNat + 1)).toNat) := by
  rw [State.fetchWord, ← toNat_wordOfBytes, BitVec.ofNat_toNat, BitVec.setWidth_eq]

/-- Settles O7: a running core is not idle, and the word it fetches is its two bytes, the one at `pc` high. -/
theorem stepRunsTheDecodedInstruction : Obligations.StepRunsTheDecodedInstruction := by
  unfold Obligations.StepRunsTheDecodedInstruction
  intro s i hrun hdec
  rw [← fetchWord_eq_ofNat] at hdec
  exact step_of_decode (idle_eq_false.2 hrun) hdec

end Sys2Proof.Machine
end

section
/-! Jumps and skips (`41_control_flow.md` R101, R103 to R106): a spelt pattern decodes to the instruction it encodes,
and an instruction whose answer is a write of `pc`, or a conditional skip, changes nothing else. -/

namespace Sys2Proof.Machine

/-! ### The spec's patterns decode -/

theorem decode_spellA {i : Instr} {c : Nibble} {nnn : Addr12} (h : encode i = encodeA c nnn) :
    decode (spellA c.toNat nnn) = .ok i := by
  rw [spellA_eq, ← h, decode_encode]

theorem decode_spellXK {i : Instr} {c : Nibble} {x : Reg} {kk : Byte} (h : encode i = encodeXK c x kk) :
    decode (spellXK c.toNat x kk.toNat) = .ok i := by
  rw [spellXK_eq, ← h, decode_encode]

theorem decode_spellXY {i : Instr} {c : Nibble} {x y : Reg} {n : Nibble} (h : encode i = encodeXY c x y n) :
    decode (spellXYN c.toNat x y.val n.toNat) = .ok i := by
  rw [spellXY_eq, ← h, decode_encode]

/-! ### Writes of `pc` -/

theorem onlyChanges_setPc (s : State) (w : Word) : OnlyChanges [.pc] s (s.setPc w) := by
  intro p hp
  cases p with
  | pc => exact absurd List.mem_cons_self hp
  | v | mem => exact fun _ => rfl
  | _ => rfl

theorem toNat_addrOperand (nnn : Addr12) : (addrOperand nnn).toNat = nnn.toNat :=
  BitVec.toNat_setWidth_of_le (by decide)

/-- Settles O22: JP writes `nnn`, widened to a word, to `pc`. -/
theorem jumpSetsPc : Obligations.JumpSetsPc := by
  unfold Obligations.JumpSetsPc
  exact fun nnn s => ⟨decode_spellA (c := 0x1) rfl,
    s.setPc (addrOperand nnn), rfl, toNat_addrOperand nnn, onlyChanges_setPc s _⟩

/-! ### Conditional skips -/

theorem onlyChanges_skipIf (s : State) (c : Bool) : OnlyChanges [.pc] s (s.skipIf c) :=
  skipIf_eq s c ▸ onlyChanges_setPc s _

theorem skipIf_pc (s : State) {c : Bool} {p : Prop} [Decidable p] (h : c = true ↔ p) :
    (s.skipIf c).pc = if p then s.pc + 2 else s.pc := by
  rw [skipIf_eq, setPc_pc, if_congr h rfl rfl]

/-- An instruction that answers with a conditional skip completes, and skips exactly if `p`, which its flag decides. -/
theorem exec_skips_iff {i : Instr} {s : State} {c : Bool} {p : Prop} [Decidable p]
    (he : exec i s = .next (s.skipIf c)) (h : c = true ↔ p) :
    ∃ t, exec i s = .next t ∧ t.pc = (if p then s.pc + 2 else s.pc) ∧ OnlyChanges [.pc] s t :=
  ⟨s.skipIf c, he, skipIf_pc s h, onlyChanges_skipIf s c⟩

theorem beq_iff_toNat_eq {a b : Byte} : (a == b) = true ↔ a.toNat = b.toNat :=
  beq_iff_eq.trans BitVec.toNat_inj.symm

theorem bne_iff_toNat_ne {a b : Byte} : (a != b) = true ↔ a.toNat ≠ b.toNat :=
  bne_iff_ne.trans (not_congr BitVec.toNat_inj.symm)

/-- Settles O24: each of the four words decodes to an instruction that answers with a skip, if its operands are equal
(SE) or if they differ (SNE). -/
theorem compareAndSkip : Obligations.CompareAndSkip := by
  unfold Obligations.CompareAndSkip
  exact fun _ _ _ _ _ => ⟨
    ⟨decode_spellXK (c := 0x3) rfl, exec_skips_iff rfl beq_iff_toNat_eq⟩,
    ⟨decode_spellXK (c := 0x4) rfl, exec_skips_iff rfl bne_iff_toNat_ne⟩,
    ⟨decode_spellXY (c := 0x5) rfl, exec_skips_iff rfl beq_iff_toNat_eq⟩,
    ⟨decode_spellXY (c := 0x9) rfl, exec_skips_iff rfl bne_iff_toNat_ne⟩⟩

end Sys2Proof.Machine
end

section
/-! Register loads and adds (`42_alu.md` R120 to R122, R126): a write of one register keeps every other register and
every other part of the state, two writes keep what both keep, and the flag of ADD is the carry. -/

namespace Sys2Proof.Machine

/-! ### Writes of a register -/

theorem regsKept_setV (s : State) {x : Reg} {written : List Reg} (h : x ∈ written) (b : Byte) :
    RegsKept written s (s.setV x b) :=
  fun _ hr => getV_setV_ne s (ne_of_mem_of_not_mem h hr).symm b

theorem onlyChanges_setV (s : State) (x : Reg) (b : Byte) : OnlyChanges [.v] s (s.setV x b) := by
  intro p hp
  cases p with
  | v => exact absurd List.mem_cons_self hp
  | mem => exact fun _ => rfl
  | _ => rfl

theorem setV_frame (s : State) (x : Reg) (b : Byte) :
    RegsKept [x] s (s.setV x b) ∧ OnlyChanges [.v] s (s.setV x b) :=
  ⟨regsKept_setV s List.mem_cons_self b, onlyChanges_setV s x b⟩

theorem RegsKept.trans {written : List Reg} {s t u : State} (h₁ : RegsKept written s t) (h₂ : RegsKept written t u) :
    RegsKept written s u :=
  fun r hr => (h₂ r hr).trans (h₁ r hr)

theorem Part.Same.trans {p : Part} {s t u : State} (h₁ : Part.Same s t p) (h₂ : Part.Same t u p) :
    Part.Same s u p := by
  cases p with
  | v | mem => exact fun k => (h₂ k).trans (h₁ k)
  | _ => exact Eq.trans h₂ h₁

theorem OnlyChanges.trans {parts : List Part} {s t u : State} (h₁ : OnlyChanges parts s t)
    (h₂ : OnlyChanges parts t u) : OnlyChanges parts s u :=
  fun p hp => (h₁ p hp).trans (h₂ p hp)

/-- A register written and then the flag: the two registers aside, nothing changes. -/
theorem setV_setFlag_frame (s : State) (x : Reg) (b : Byte) (c : Bool) :
    RegsKept [x, VF] s ((s.setV x b).setFlag c) ∧ OnlyChanges [.v] s ((s.setV x b).setFlag c) :=
  ⟨(regsKept_setV s (by simp) b).trans (regsKept_setV (s.setV x b) (x := VF) (by simp) _),
    (onlyChanges_setV s x b).trans (onlyChanges_setV (s.setV x b) VF _)⟩

/-! ### The flag -/

theorem toNat_flagByte {c : Bool} {p : Prop} [Decidable p] (h : c = true ↔ p) :
    (flagByte c).toNat = if p then 1 else 0 := by
  rw [← if_congr h rfl rfl]
  cases c <;> rfl

theorem carryOut_iff {a b : Byte} : carryOut a b = true ↔ a.toNat + b.toNat > 255 := decide_eq_true_iff

theorem setFlag_getV_VF (s : State) (c : Bool) : (s.setFlag c).getV VF = flagByte c := getV_setV_self s VF _

theorem setFlag_getV_ne (s : State) {x : Reg} (h : x ≠ VF) (c : Bool) : (s.setFlag c).getV x = s.getV x :=
  getV_setV_ne s h _

/-- Settles O32: the carry is written last, so it is what VF holds whatever `x` is, and the sum stays in `x` if `x`
is not VF. -/
theorem addRegistersSetsCarry : Obligations.AddRegistersSetsCarry := by
  unfold Obligations.AddRegistersSetsCarry
  intro x y s
  refine ⟨decode_spellXY (c := 0x8) (n := 4) rfl, _, rfl, fun hx => ?_, ?_, setV_setFlag_frame s x _ _⟩
  · rw [setFlag_getV_ne _ hx, getV_setV_self, BitVec.toNat_add]
  · rw [setFlag_getV_VF, toNat_flagByte carryOut_iff]

/-- Settles O30: each of the three words decodes to an instruction that writes `x` alone. -/
theorem loadByteAddByteAndCopy : Obligations.LoadByteAddByteAndCopy := by
  unfold Obligations.LoadByteAddByteAndCopy
  intro x y kk s
  refine ⟨⟨decode_spellXK (c := 0x6) rfl, _, rfl, getV_setV_self s x _, setV_frame s x _⟩,
    ⟨decode_spellXK (c := 0x7) rfl, _, rfl, ?_, setV_frame s x _⟩,
    ⟨decode_spellXY (c := 0x8) (n := 0) rfl, _, rfl, getV_setV_self s x _, setV_frame s x _⟩⟩
  rw [getV_setV_self, BitVec.toNat_add]

end Sys2Proof.Machine
end

section
/-! The index register and the decimal digits (`43_index_memory.md` R150, R152, R153): a write of `I` keeps every other
part of the state, and stores through `I` at different offsets below 16 reach different cells, so each is read back
whatever is stored after it. -/

namespace Sys2Proof.Machine

/-! ### Writes of `I` -/

theorem onlyChanges_setI (s : State) (w : Word) : OnlyChanges [.i] s (s.setI w) := by
  intro p hp
  cases p with
  | i => exact absurd List.mem_cons_self hp
  | v | mem => exact fun _ => rfl
  | _ => rfl

theorem toNat_wordOperand (b : Byte) : (wordOperand b).toNat = b.toNat :=
  BitVec.toNat_setWidth_of_le (by decide)

/-- Five times a byte is below 65536, so the glyph's address does not wrap. -/
theorem toNat_glyphAddr (b : Byte) : (glyphAddr b).toNat = b.toNat * 5 := by
  have hb := b.isLt
  rw [glyphAddr, BitVec.toNat_mul, toNat_wordOperand]
  exact Nat.mod_eq_of_lt (by change b.toNat * 5 < 65536; omega)

/-- Settles O36: each of the two instructions writes `I` alone, with `nnn` or with the glyph's address. -/
theorem loadIndexAndGlyphAddress : Obligations.LoadIndexAndGlyphAddress := by
  unfold Obligations.LoadIndexAndGlyphAddress
  exact fun nnn x s => ⟨
    ⟨decode_spellA (c := 0xA) rfl, _, rfl, toNat_addrOperand nnn, onlyChanges_setI s _⟩,
    ⟨decode_spellXK (c := 0xF) (kk := 0x29) rfl, _, rfl, toNat_glyphAddr (s.getV x), onlyChanges_setI s _⟩⟩

/-! ### Writes of memory -/

theorem onlyChanges_memWrite (s : State) (a : Nat) (b : Byte) : OnlyChanges [.mem] s (s.memWrite a b) := by
  intro p hp
  cases p with
  | mem => exact absurd List.mem_cons_self hp
  | v => exact fun _ => rfl
  | _ => rfl

theorem BytesKept.trans {stored : List Nat} {s t u : State} (h₁ : BytesKept stored s t)
    (h₂ : BytesKept stored t u) : BytesKept stored s u :=
  fun a ha hn => (h₂ a ha hn).trans (h₁ a ha hn)

theorem bytesKept_memWrite {s : State} (h : s.mem.wf = true) {a : Nat} {stored : List Nat}
    (ha : a % memSize ∈ stored) (b : Byte) : BytesKept stored s (s.memWrite a b) := by
  intro k hk hn
  rw [memRead_memWrite h, Nat.mod_eq_of_lt hk, if_neg (ne_of_mem_of_not_mem ha hn).symm]

/-! ### Stores through `I`

The address is formed in `s`; the store is made in `t`, which earlier stores of the instruction may have reached. -/

theorem memRead_memWrite_effAddr_self (s : State) {t : State} (h : t.mem.wf = true) (off : Nat) (b : Byte) :
    (t.memWrite (s.indexed off) b).memRead (s.effAddr off) = b := by
  rw [memRead_memWrite h]
  exact if_pos (Nat.mod_mod _ _)

theorem memRead_memWrite_effAddr_ne (s : State) {t : State} (h : t.mem.wf = true) {i j : Nat} (hi : i < 16)
    (hj : j < 16) (hne : i ≠ j) (b : Byte) :
    (t.memWrite (s.indexed j) b).memRead (s.effAddr i) = t.memRead (s.effAddr i) := by
  rw [memRead_memWrite h, if_neg]
  exact fun e => hne (effAddr_inj s hi hj ((Nat.mod_mod _ _).symm.trans e))

/-! ### LD B, Vx -/

/-- The digits in plain arithmetic (R153). -/
theorem toNat_decimalDigits (b : Byte) :
    (decimalDigits b).1.toNat = b.toNat / 100 ∧ (decimalDigits b).2.1.toNat = b.toNat / 10 % 10 ∧
      (decimalDigits b).2.2.toNat = b.toNat % 10 :=
  ⟨BitVec.toNat_udiv, by rw [decimalDigits, BitVec.toNat_umod, BitVec.toNat_udiv]; rfl, BitVec.toNat_umod⟩

/-- Three bytes stored at `I`, `I + 1` and `I + 2`, in this order. -/
def storeThree (s : State) (b₀ b₁ b₂ : Byte) : State :=
  ((s.memWrite (s.indexed 0) b₀).memWrite (s.indexed 1) b₁).memWrite (s.indexed 2) b₂

theorem exec_ldB (x : Reg) (s : State) :
    exec (.ldB x) s = .next (storeThree s (decimalDigits (s.getV x)).1 (decimalDigits (s.getV x)).2.1
      (decimalDigits (s.getV x)).2.2) := rfl

section StoreThree
variable {s : State} (h : s.mem.wf = true) (b₀ b₁ b₂ : Byte)
include h

/-- Each of the three bytes is read back: the later stores reach other cells. -/
theorem storeThree_memRead :
    (storeThree s b₀ b₁ b₂).memRead (s.effAddr 0) = b₀ ∧ (storeThree s b₀ b₁ b₂).memRead (s.effAddr 1) = b₁ ∧
      (storeThree s b₀ b₁ b₂).memRead (s.effAddr 2) = b₂ := by
  have h₁ := memWrite_wf h (s.indexed 0) b₀
  have h₂ := memWrite_wf h₁ (s.indexed 1) b₁
  refine ⟨?_, ?_, memRead_memWrite_effAddr_self s h₂ 2 b₂⟩
  · rw [storeThree, memRead_memWrite_effAddr_ne s h₂ (by decide) (by decide) (by decide),
      memRead_memWrite_effAddr_ne s h₁ (by decide) (by decide) (by decide), memRead_memWrite_effAddr_self s h]
  · rw [storeThree, memRead_memWrite_effAddr_ne s h₂ (by decide) (by decide) (by decide),
      memRead_memWrite_effAddr_self s h₁]

theorem storeThree_bytesKept :
    BytesKept [s.effAddr 0, s.effAddr 1, s.effAddr 2] s (storeThree s b₀ b₁ b₂) := by
  have h₁ := memWrite_wf h (s.indexed 0) b₀
  have h₂ := memWrite_wf h₁ (s.indexed 1) b₁
  exact (bytesKept_memWrite h (by simp [State.effAddr]) b₀).trans
    ((bytesKept_memWrite h₁ (by simp [State.effAddr]) b₁).trans (bytesKept_memWrite h₂ (by simp [State.effAddr]) b₂))

end StoreThree

theorem onlyChanges_storeThree (s : State) (b₀ b₁ b₂ : Byte) : OnlyChanges [.mem] s (storeThree s b₀ b₁ b₂) :=
  (onlyChanges_memWrite s _ _).trans ((onlyChanges_memWrite _ _ _).trans (onlyChanges_memWrite _ _ _))

/-- Settles O38: LD B stores the three digits, each is read back, and the bytes elsewhere are kept. -/
theorem decimalDigitsAreStored : Obligations.DecimalDigitsAreStored := by
  unfold Obligations.DecimalDigitsAreStored
  intro x s h
  obtain ⟨r₀, r₁, r₂⟩ := storeThree_memRead h (decimalDigits (s.getV x)).1 (decimalDigits (s.getV x)).2.1
    (decimalDigits (s.getV x)).2.2
  obtain ⟨hundreds, tens, units⟩ := toNat_decimalDigits (s.getV x)
  exact ⟨decode_spellXK (c := 0xF) (kk := 0x33) rfl, _, exec_ldB x s,
    (congrArg BitVec.toNat r₀).trans hundreds, (congrArg BitVec.toNat r₁).trans tens,
    (congrArg BitVec.toNat r₂).trans units, ⟨rfl, rfl, rfl⟩, storeThree_bytesKept h _ _ _, onlyChanges_storeThree s _ _ _⟩

end Sys2Proof.Machine
end

section
/-! Clearing the screen (`44_display.md` R171): a write of the screen keeps every other part of the state. -/

namespace Sys2Proof.Machine

theorem onlyChanges_setVideo (s : State) (vid : Video) : OnlyChanges [.video] s (s.setVideo vid) := by
  intro p hp
  cases p with
  | video => exact absurd List.mem_cons_self hp
  | v => exact setVideo_getV s vid
  | mem => exact setVideo_memRead s vid
  | _ => rfl

theorem exec_cls (s : State) : exec .cls s = .next (s.setVideo Video.clear) := rfl

/-- Settles O42: CLS writes the clear screen, whose pixels are all 0, and writes no other part of the state, VF
included. -/
theorem clearScreen : Obligations.ClearScreen := by
  unfold Obligations.ClearScreen
  exact fun s => ⟨decode_encode .cls, _, exec_cls s, fun _ => pixel_clear _ _, onlyChanges_setVideo s _⟩

end Sys2Proof.Machine
end

section
/-! The timers and the key wait (`45_input_timers.md` R192 to R195): a write of one timer keeps every other part of the
state, the lowest key down is the one the search finds, and the rewind undoes the pre-advance. -/

namespace Sys2Proof.Machine

/-! ### Writes of a timer -/

theorem onlyChanges_setDT (s : State) (b : Byte) : OnlyChanges [.dt] s (s.setDT b) := by
  intro p hp
  cases p with
  | dt => exact absurd List.mem_cons_self hp
  | v => exact setDT_getV s b
  | mem => exact setDT_memRead s b
  | _ => rfl

theorem onlyChanges_setST (s : State) (b : Byte) : OnlyChanges [.st] s (s.setST b) := by
  intro p hp
  cases p with
  | st => exact absurd List.mem_cons_self hp
  | v => exact setST_getV s b
  | mem => exact setST_memRead s b
  | _ => rfl

/-- Settles O47: each of the three instructions is one write, of `x` or of one timer. -/
theorem timerMoves : Obligations.TimerMoves := by
  unfold Obligations.TimerMoves
  exact fun x s => ⟨
    ⟨decode_spellXK (c := 0xF) (kk := 0x07) rfl, s.setV x s.dt, rfl, getV_setV_self s x _, setV_frame s x _⟩,
    ⟨decode_spellXK (c := 0xF) (kk := 0x15) rfl, s.setDT (s.getV x), rfl, setDT_dt s _, onlyChanges_setDT s _⟩,
    ⟨decode_spellXK (c := 0xF) (kk := 0x18) rfl, s.setST (s.getV x), rfl, setST_st s _, onlyChanges_setST s _⟩⟩

/-! ### The key wait -/

/-- The search finds a key exactly if it is down and every key below it is up. -/
theorem lowestKey_eq_some {s : State} {k : Fin 16} :
    s.lowestKey = some k ↔ s.getKey k = true ∧ ∀ j < k, s.getKey j = false := by
  refine ⟨lowestKey_some, fun ⟨hdown, hbelow⟩ => ?_⟩
  cases hfound : s.lowestKey with
  | none => exact absurd hdown (by simp [lowestKey_none.1 hfound k])
  | some j =>
    obtain ⟨jdown, jbelow⟩ := lowestKey_some hfound
    rcases lt_trichotomy j k with hlt | rfl | hgt
    · exact absurd jdown (by simp [hbelow j hlt])
    · rfl
    · exact absurd hdown (by simp [jbelow k hgt])

theorem toNat_keyByte (k : Fin 16) : (keyByte k).toNat = k.val :=
  (BitVec.toNat_ofNat k.val 8).trans (Nat.mod_eq_of_lt (k.isLt.trans (by decide)))

theorem exec_ldVxK (x : Reg) (s : State) : exec (.ldVxK x) s = execLdVxK x s := rfl

theorem preAdvance_rewind (s : State) : s.preAdvance.rewind = s := by
  have hpc : s.pc + 2 - 2 = s.pc := BitVec.add_sub_cancel s.pc 2
  calc s.preAdvance.rewind
    _ = s.setPc (s.pc + 2 - 2) := rfl
    _ = s.setPc s.pc := by rw [hpc]
    _ = s := rfl

theorem preAdvance_lowestKey (s : State) : s.preAdvance.lowestKey = s.lowestKey := rfl

/-- A running core that waits with no key down stays where it is: the rewind undoes the pre-advance. -/
theorem step_waits {s : State} {x : Reg} (hrun : s.Running) (hdec : decode s.fetchWord = .ok (.ldVxK x))
    (hup : s.lowestKey = none) : step s = .next s := by
  rw [step_of_decode (idle_eq_false.2 hrun) hdec,
    exec_ldVxK, execLdVxK_up ((preAdvance_lowestKey s).trans hup), preAdvance_rewind]

/-- Settles O48: the key search answers with the lowest key down, which `x` takes, or with none, and then the answer is
a write of `pc` that undoes the pre-advance. -/
theorem waitForTheLowestKey : Obligations.WaitForTheLowestKey := by
  unfold Obligations.WaitForTheLowestKey
  intro x s
  rw [exec_ldVxK]
  refine ⟨decode_spellXK (c := 0xF) (kk := 0x0A) rfl, fun k hdown hbelow => ?_, fun hup => ?_,
    fun hrun hdec hup => step_waits hrun hdec (lowestKey_none.2 hup)⟩
  · refine ⟨_, execLdVxK_down (lowestKey_eq_some.2 ⟨hdown, hbelow⟩), ?_, setV_frame s x _⟩
    rw [getV_setV_self, toNat_keyByte]
  · exact ⟨_, execLdVxK_up (lowestKey_none.2 hup), setPc_pc s _, onlyChanges_setPc s _⟩

end Sys2Proof.Machine
end

section
/-! The encoding once more (`30_encoding.md` R71, R74, R75): the two directions of the round trip as the obligations
state them, and the words that decode to no instruction. -/

namespace Sys2Proof

/-- Settles O1: each instruction's own round trip, for every operand. -/
theorem decodeOfEncodeIsTheInstruction : Obligations.DecodeOfEncodeIsTheInstruction := by
  unfold Obligations.DecodeOfEncodeIsTheInstruction
  exact decode_encode

/-- Settles O2: class by class, the word is the encoding of its own fields. -/
theorem encodeOfDecodeIsTheWord : Obligations.EncodeOfDecodeIsTheWord := by
  unfold Obligations.EncodeOfDecodeIsTheWord
  exact fun _ _ => encode_of_decode

/-- Settles O5: each word is the encoding of the instruction it stands for; 0x0123 is neither word of class 0. -/
theorem spelledWordsDecode : Obligations.SpelledWordsDecode := by
  unfold Obligations.SpelledWordsDecode
  exact ⟨decode_encode .cls, decode_encode .ret, decode_encode (.call 0x20A), decode_encode (.seByte 3 0x10),
    decode_encode (.sneReg 1 2 7), decode_encode (.addReg 10 11), decode_encode (.shr 1 5),
    decode_encode (.ldI 0x123), decode_encode (.drw 10 11 5), decode_encode (.skp 2), decode_encode (.ldVxK 3),
    decode_encode (.storeRegs 12), rfl⟩

/-! ### The sub-key of a class as a number -/

theorem opClass_eq_iff {w : Word} {c : Nibble} : Fields.opClass w = c ↔ w.toNat / 4096 = c.toNat := by
  rw [← BitVec.toNat_inj, toNat_opClass]

theorem n_eq_iff {w : Word} {n : Nibble} : Fields.n w = n ↔ w.toNat % 16 = n.toNat := by
  rw [← BitVec.toNat_inj, toNat_n]

theorem kk_eq_iff {w : Word} {kk : Byte} : Fields.kk w = kk ↔ w.toNat % 256 = kk.toNat := by
  rw [← BitVec.toNat_inj, toNat_kk]

/-! ### What the decoder of each class misses -/

/-- A row of a class's decoder is passed over exactly if its sub-key is not there. -/
theorem ite_ok_eq_error_iff {p : Prop} [Decidable p] {i : Instr} {d : Except Unrecognized Instr} {e : Unrecognized} :
    (if p then .ok i else d) = .error e ↔ ¬ p ∧ d = .error e := by
  split <;> simp_all

theorem decodeClass0_eq_error_iff {w : Word} {e : Unrecognized} :
    decodeClass0 w = .error e ↔ w.toNat ≠ 0x00E0 ∧ w.toNat ≠ 0x00EE ∧ e = .class0 := by
  simp only [decodeClass0, ite_ok_eq_error_iff, ← BitVec.toNat_inj, Except.error.injEq, eq_comm (a := e)]
  rfl

theorem decodeClass8_eq_error_iff {w : Word} {e : Unrecognized} :
    decodeClass8 w = .error e ↔ w.toNat % 16 ∈ [8, 9, 10, 11, 12, 13, 15] ∧ e = .class8 := by
  simp only [decodeClass8, ite_ok_eq_error_iff, n_eq_iff, Except.error.injEq, eq_comm (a := e)]
  simp only [← and_assoc, and_congr_left_iff, BitVec.reduceToNat, List.mem_cons, List.not_mem_nil, or_false]
  omega

theorem decodeClassE_eq_error_iff {w : Word} {e : Unrecognized} :
    decodeClassE w = .error e ↔ w.toNat % 256 ∉ [0x9E, 0xA1] ∧ e = .classE := by
  simp only [decodeClassE, ite_ok_eq_error_iff, kk_eq_iff, Except.error.injEq, eq_comm (a := e)]
  simp [and_assoc]

theorem decodeClassF_eq_error_iff {w : Word} {e : Unrecognized} :
    decodeClassF w = .error e ↔
      w.toNat % 256 ∉ [0x07, 0x0A, 0x15, 0x18, 0x1E, 0x29, 0x33, 0x55, 0x65] ∧ e = .classF := by
  simp only [decodeClassF, ite_ok_eq_error_iff, kk_eq_iff, Except.error.injEq, eq_comm (a := e)]
  simp [and_assoc]

/-- The decoder answers with an error only in the four classes that have a sub-key. -/
theorem decode_eq_error_iff {w : Word} {e : Unrecognized} :
    decode w = .error e ↔
      (w.toNat / 4096 = 0 ∧ decodeClass0 w = .error e) ∨ (w.toNat / 4096 = 8 ∧ decodeClass8 w = .error e) ∨
      (w.toNat / 4096 = 14 ∧ decodeClassE w = .error e) ∨ (w.toNat / 4096 = 15 ∧ decodeClassF w = .error e) := by
  obtain ⟨hc, hd⟩ | ⟨hc, hd⟩ | ⟨hc, hd⟩ | ⟨hc, hd⟩ | ⟨hc, hd⟩ | ⟨hc, hd⟩ | ⟨hc, hd⟩ | ⟨hc, hd⟩ | ⟨hc, hd⟩ | ⟨hc, hd⟩ |
    ⟨hc, hd⟩ | ⟨hc, hd⟩ | ⟨hc, hd⟩ | ⟨hc, hd⟩ | ⟨hc, hd⟩ | ⟨hc, hd⟩ := decode_cases w <;>
    simp [opClass_eq_iff.1 hc, hd]

/-- Settles O4: an error comes from one of four classes, and each class says which of its words it misses. -/
theorem unrecognizedWordsAreTheListedOnes : Obligations.UnrecognizedWordsAreTheListedOnes := by
  unfold Obligations.UnrecognizedWordsAreTheListedOnes
  intro w
  simp only [decode_eq_error_iff, decodeClass0_eq_error_iff, decodeClass8_eq_error_iff, decodeClassE_eq_error_iff,
    decodeClassF_eq_error_iff, reduceCtorEq, and_false, and_true, or_false, false_or]

end Sys2Proof
end

section
/-! The frames of all instructions (`10_state.md` R22 to R34, `20_memory.md` R57). Each instruction answers with a few
named updates of the state; an update's own frame, widened to what the instruction lists, is the instruction's frame. -/

namespace Sys2Proof.Machine

/-! ### Every instruction answers a next state -/

theorem execRet_next (s : State) : ∃ t, execRet s = .next t := by
  unfold execRet
  split <;> exact ⟨_, rfl⟩

theorem execCall_next (nnn : Addr12) (s : State) : ∃ t, execCall nnn s = .next t := by
  unfold execCall
  split <;> exact ⟨_, rfl⟩

theorem execLdVxK_next (x : Reg) (s : State) : ∃ t, execLdVxK x s = .next t := by
  unfold execLdVxK
  split <;> exact ⟨_, rfl⟩

theorem exec_next (i : Instr) (s : State) : ∃ t, exec i s = .next t := by
  cases i with
  | ret => exact execRet_next s
  | call nnn => exact execCall_next nnn s
  | ldVxK x => exact execLdVxK_next x s
  | _ => exact ⟨_, rfl⟩

/-! ### The frames of the updates -/

theorem OnlyChanges.refl (parts : List Part) (s : State) : OnlyChanges parts s s := by
  intro p _
  cases p with
  | v | mem => exact fun _ => rfl
  | _ => rfl

theorem OnlyChanges.mono {ps qs : List Part} {s t : State} (h : OnlyChanges ps s t) (hsub : ps ⊆ qs) :
    OnlyChanges qs s t :=
  fun p hp => h p fun hm => hp (hsub hm)

theorem onlyChanges_raise (s : State) (c : FaultCause) (w : Word) : OnlyChanges [.fault, .pc] s (s.raise c w) := by
  intro p hp
  cases p with
  | fault | pc => simp at hp
  | v | mem => exact fun _ => rfl
  | _ => rfl

theorem onlyChanges_countDraw (s : State) : OnlyChanges [.draws] s s.countDraw := by
  intro p hp
  cases p with
  | draws => simp at hp
  | v | mem => exact fun _ => rfl
  | _ => rfl

/-- What a return that pops leaves. -/
theorem onlyChanges_sp_pc (s : State) (n : Fin 17) (w : Word) :
    OnlyChanges [.sp, .pc] s { s with sp := n, pc := w } := by
  intro p hp
  cases p with
  | sp | pc => simp at hp
  | v | mem => exact fun _ => rfl
  | _ => rfl

/-- What a call that pushes leaves. -/
theorem onlyChanges_stack_sp_pc (s : State) (n : Fin 17) (slots : Vector Word 16) (w : Word) :
    OnlyChanges [.stack, .sp, .pc] s { s with sp := n, stack := slots, pc := w } := by
  intro p hp
  cases p with
  | stack | sp | pc => simp at hp
  | v | mem => exact fun _ => rfl
  | _ => rfl

theorem onlyChanges_loadEach (rs : List Reg) : ∀ s : State, OnlyChanges [.v] s (loadEach rs s) := by
  induction rs with
  | nil => exact fun s => .refl _ s
  | cons r rs ih => exact fun s => (onlyChanges_setV s r _).trans (ih _)

theorem onlyChanges_storeEach (rs : List Reg) : ∀ s : State, OnlyChanges [.mem] s (storeEach rs s) := by
  induction rs with
  | nil => exact fun s => .refl _ s
  | cons r rs ih => exact fun s => (onlyChanges_memWrite s _ _).trans (ih _)

/-- The flag written and then a register, in the order of the subtracts and the shifts. -/
theorem setFlag_setV_frame (s : State) (x : Reg) (b : Byte) (c : Bool) :
    RegsKept [x, VF] s ((s.setFlag c).setV x b) ∧ OnlyChanges [.v] s ((s.setFlag c).setV x b) :=
  ⟨(regsKept_setV s (x := VF) (by simp) _).trans (regsKept_setV (s.setFlag c) (by simp) b),
    (onlyChanges_setV s VF _).trans (onlyChanges_setV (s.setFlag c) x b)⟩

/-! ### The parts an instruction changes -/

theorem execRet_onlyChanges {s t : State} (h : execRet s = .next t) : OnlyChanges [.pc, .sp, .fault] s t := by
  obtain ⟨_, rfl⟩ | ⟨_, _, rfl⟩ | ⟨_, _, rfl⟩ := execRet_cases h
  · exact (onlyChanges_sp_pc s _ _).mono (by simp)
  · exact (onlyChanges_raise s _ _).mono (by simp)
  · exact .refl _ _

theorem execCall_onlyChanges {nnn : Addr12} {s t : State} (h : execCall nnn s = .next t) :
    OnlyChanges [.pc, .sp, .stack, .fault] s t := by
  obtain ⟨_, rfl⟩ | ⟨_, _, rfl⟩ | ⟨_, _, rfl⟩ := execCall_cases h
  · exact (onlyChanges_stack_sp_pc s _ _ _).mono (by simp)
  · exact (onlyChanges_raise s _ _).mono (by simp)
  · exact (onlyChanges_setPc s _).mono (by simp)

theorem execLdVxK_onlyChanges {x : Reg} {s t : State} (h : execLdVxK x s = .next t) :
    OnlyChanges [.v, .pc] s t := by
  obtain ⟨_, _, rfl⟩ | ⟨_, rfl⟩ := execLdVxK_cases h
  · exact (onlyChanges_setV s _ _).mono (by simp)
  · exact (onlyChanges_setPc s _).mono (by simp)

theorem exec_onlyChanges {i : Instr} {s t : State} (h : exec i s = .next t) : OnlyChanges (mayChange i) s t := by
  cases i with
  | ret => exact execRet_onlyChanges h
  | call => exact execCall_onlyChanges h
  | ldVxK => exact execLdVxK_onlyChanges h
  | cls => cases h; exact onlyChanges_setVideo s _
  | jp | jpV0 => cases h; exact onlyChanges_setPc s _
  | seByte | sneByte | seReg | sneReg | skp | sknp => cases h; exact onlyChanges_skipIf s _
  | ldByte | addByte | ldReg | orReg | andReg | xorReg | ldVxDT => cases h; exact onlyChanges_setV s _ _
  | addReg => cases h; exact (setV_setFlag_frame s _ _ _).2
  | subReg | subnReg | shr | shl => cases h; exact (setFlag_setV_frame s _ _ _).2
  | rnd =>
    cases h
    exact ((onlyChanges_setV s _ _).mono (by simp [mayChange])).trans
      ((onlyChanges_countDraw _).mono (by simp [mayChange]))
  | drw =>
    cases h
    exact ((onlyChanges_setVideo s _).mono (by simp [mayChange])).trans
      ((onlyChanges_setV _ VF _).mono (by simp [mayChange]))
  | ldI | addI | ldF => cases h; exact onlyChanges_setI s _
  | ldDTVx => cases h; exact onlyChanges_setDT s _
  | ldSTVx => cases h; exact onlyChanges_setST s _
  | ldB => cases h; exact onlyChanges_storeThree s _ _ _
  | storeRegs => cases h; exact onlyChanges_storeEach _ s
  | loadRegs => cases h; exact onlyChanges_loadEach _ s

/-- Settles O17: the answer of each instruction is a few updates whose frames lie within its list. -/
theorem onlyTheListedPartsChange : Obligations.OnlyTheListedPartsChange := by
  unfold Obligations.OnlyTheListedPartsChange
  exact fun _ _ _ => exec_onlyChanges

/-! ### The registers an instruction writes -/

theorem regsKept_loadEach (rs : List Reg) (s : State) : RegsKept rs s (loadEach rs s) := by
  intro r hr
  rw [loadEach_getV, if_neg hr]

theorem execLdVxK_regsKept {x : Reg} {s t : State} (h : execLdVxK x s = .next t) : RegsKept [x] s t := by
  obtain ⟨_, _, rfl⟩ | ⟨_, rfl⟩ := execLdVxK_cases h
  · exact (setV_frame s x _).1
  · exact fun _ _ => rfl

theorem exec_regsKept {i : Instr} {s t : State} (h : exec i s = .next t) : RegsKept (writesRegs i) s t := by
  cases i with
  | ldByte x | addByte x | ldReg x | orReg x | andReg x | xorReg x | ldVxDT x | rnd x =>
    cases h; exact (setV_frame s x _).1
  | ldVxK => exact execLdVxK_regsKept h
  | addReg => cases h; exact (setV_setFlag_frame s _ _ _).1
  | subReg | subnReg | shr | shl => cases h; exact (setFlag_setV_frame s _ _ _).1
  | drw => cases h; exact (setV_frame (s.setVideo _) VF _).1
  | loadRegs => cases h; exact regsKept_loadEach _ s
  | _ => exact fun r _ => exec_onlyChanges h .v (by simp [mayChange]) r

/-- Settles O15: the registers written are those of the answer's updates; the instructions that list none do not list
the registers among their parts either. -/
theorem onlyTheListedRegistersAreWritten : Obligations.OnlyTheListedRegistersAreWritten := by
  unfold Obligations.OnlyTheListedRegistersAreWritten
  exact fun _ _ _ => exec_regsKept

/-! ### The bytes an instruction stores -/

theorem bytesKept_storeEach (rs : List Reg) {s : State} (h : s.mem.wf = true) :
    BytesKept (rs.map fun r => s.effAddr r.val) s (storeEach rs s) := by
  intro a ha hn
  refine storeEach_memRead_other rs h fun r hr he => hn ?_
  rw [← Nat.mod_eq_of_lt ha, he]
  exact List.mem_map_of_mem hr

theorem exec_bytesKept {i : Instr} {s t : State} (hw : s.mem.wf = true) (h : exec i s = .next t) :
    BytesKept (storesTo s i) s t := by
  cases i with
  | ldB => cases h; exact storeThree_bytesKept hw _ _ _
  | storeRegs => cases h; exact bytesKept_storeEach _ hw
  | _ => exact fun a _ _ => exec_onlyChanges h .mem (by simp [mayChange]) a

/-- Settles O16: LD B and LD [I] store at the addresses they list; the other instructions do not list memory among
their parts. -/
theorem onlyTheListedBytesAreStored : Obligations.OnlyTheListedBytesAreStored := by
  unfold Obligations.OnlyTheListedBytesAreStored
  exact fun _ _ _ => exec_bytesKept

end Sys2Proof.Machine
end

section
/-! Calls, returns and the remaining jumps and skips (`41_control_flow.md` R100, R102, R107; `45_input_timers.md` R190,
R191; `60_exceptions.md` R213, R214). -/

namespace Sys2Proof.Machine

/-! ### JP V0, nnn -/

/-- A byte and a 12-bit address add up to less than 65536, so the sum does not wrap. -/
theorem toNat_wordOperand_add_addrOperand (b : Byte) (nnn : Addr12) :
    (wordOperand b + addrOperand nnn).toNat = b.toNat + nnn.toNat := by
  have hb := b.isLt
  have hn := nnn.isLt
  rw [BitVec.toNat_add, toNat_wordOperand, toNat_addrOperand]
  omega

/-- Settles O23: JP V0 writes the sum, which no word wraps, to `pc`. -/
theorem jumpWithOffsetAddsV0 : Obligations.JumpWithOffsetAddsV0 := by
  unfold Obligations.JumpWithOffsetAddsV0
  exact fun nnn s => ⟨decode_spellA (c := 0xB) rfl, _, rfl, toNat_wordOperand_add_addrOperand _ _,
    onlyChanges_setPc s _⟩

/-! ### Skips on a key -/

theorem keyIndex_eq {b : Byte} {k : Fin 16} (h : k.val = b.toNat % 16) : keyIndex b = k := Fin.ext h.symm

/-- Settles O46: each of the two instructions answers with a skip on the key that the low four bits of `Vx` name. -/
theorem skipOnKey : Obligations.SkipOnKey := by
  unfold Obligations.SkipOnKey
  intro x k s hk
  obtain rfl := keyIndex_eq hk
  exact ⟨⟨decode_spellXK (c := 0xE) (kk := 0x9E) rfl, exec_skips_iff rfl Iff.rfl⟩,
    ⟨decode_spellXK (c := 0xE) (kk := 0xA1) rfl, exec_skips_iff rfl (by rw [Bool.not_eq_true'])⟩⟩

/-! ### A stack error under each policy -/

theorem stackError_of_fault {s : State} (h : s.cfg.stackPolicy = .fault) (c : FaultCause) (w : Word) (p : State) :
    s.stackError c w p = s.raise c w := by
  rw [State.stackError, h]

theorem stackError_of_ignore {s : State} (h : s.cfg.stackPolicy = .ignore) (c : FaultCause) (w : Word) (p : State) :
    s.stackError c w p = p := by
  rw [State.stackError, h]

theorem execRet_fault {s : State} (h : s.sp = 0) (hp : s.cfg.stackPolicy = .fault) :
    execRet s = .next (s.raise .stackUnderflow (encode .ret)) := by
  rw [execRet_empty h, stackError_of_fault hp]

theorem execRet_ignore {s : State} (h : s.sp = 0) (hp : s.cfg.stackPolicy = .ignore) : execRet s = .next s := by
  rw [execRet_empty h, stackError_of_ignore hp]

theorem execCall_fault {s : State} (nnn : Addr12) (h : s.sp = 16) (hp : s.cfg.stackPolicy = .fault) :
    execCall nnn s = .next (s.raise .stackOverflow (encode (.call nnn))) := by
  rw [execCall_full nnn h, stackError_of_fault hp]

theorem execCall_ignore {s : State} (nnn : Addr12) (h : s.sp = 16) (hp : s.cfg.stackPolicy = .ignore) :
    execCall nnn s = .next (s.setPc (addrOperand nnn)) := by
  rw [execCall_full nnn h, stackError_of_ignore hp]

/-- Settles O28: an empty stack makes RET raise or, under `ignore`, do nothing. -/
theorem returnOnAnEmptyStack : Obligations.ReturnOnAnEmptyStack := by
  unfold Obligations.ReturnOnAnEmptyStack
  intro s h
  refine ⟨_, execRet_empty h, fun hp => ?_, fun hp => stackError_of_ignore hp _ _ _⟩
  rw [stackError_of_fault hp]
  exact ⟨rfl, rfl, onlyChanges_raise s _ _⟩

/-- Settles O26: a full stack makes CALL raise or, under `ignore`, jump alone. -/
theorem callOnAFullStack : Obligations.CallOnAFullStack := by
  unfold Obligations.CallOnAFullStack
  intro nnn s h
  refine ⟨_, execCall_full nnn h, fun hp => ?_, fun hp => ?_⟩
  · rw [stackError_of_fault hp]
    have hw : spellA 0x2 nnn = encode (.call nnn) := spellA_eq 0x2 nnn
    exact ⟨hw ▸ rfl, rfl, onlyChanges_raise s _ _⟩
  · rw [stackError_of_ignore hp]
    exact ⟨toNat_addrOperand nnn, onlyChanges_setPc s _⟩

/-! ### A push and a pop -/

/-- What a call leaves that pushes the address `after` it. -/
def State.called (s : State) (after : Word) (target : Addr12) (h : s.sp.val < 16) : State :=
  { s with sp := ⟨s.sp.val + 1, by omega⟩, stack := s.stack.set s.sp.val after h, pc := addrOperand target }

theorem exec_call_push {s : State} (h : s.sp.val < 16) (after : Word) (target : Addr12) :
    exec (.call target) (s.setPc after) = .next (s.called after target h) := execCall_push (s := s.setPc after) target h

section
variable (s : State) (after : Word) (target : Addr12) (h : s.sp.val < 16)

theorem called_sp : (s.called after target h).sp.val = s.sp.val + 1 := rfl

/-- The slot at `SP` holds the word pushed, the others keep theirs. -/
theorem called_stack (j : Fin 16) :
    (s.called after target h).stack[j] = if s.sp.val = j.val then after else s.stack[j] :=
  Vector.getElem_set h j.isLt

theorem called_onlyChanges : OnlyChanges [.sp, .pc, .stack] s (s.called after target h) :=
  (onlyChanges_stack_sp_pc s _ _ _).mono (by simp)

end

/-- Settles O25: with a free slot, CALL pushes the address after it and jumps. -/
theorem callPushesAndJumps : Obligations.CallPushesAndJumps := by
  unfold Obligations.CallPushesAndJumps
  intro nnn s k hk
  have h : s.sp.val < 16 := hk ▸ k.isLt
  refine ⟨decode_spellA (c := 0x2) rfl, _, exec_call_push h s.pc nnn, ?_, fun j hj => ?_,
    congrArg (· + 1) hk, toNat_addrOperand nnn, (called_onlyChanges s s.pc nnn h).mono (by simp)⟩
  · rw [called_stack, if_pos hk]
  · rw [called_stack, if_neg fun e => hj (Fin.ext (e.symm.trans hk))]

/-- What a return leaves that pops. -/
def State.returned (s : State) (h : 0 < s.sp.val) : State :=
  { s with sp := ⟨s.sp.val - 1, by omega⟩, pc := s.stack[s.sp.val - 1] }

theorem exec_ret_pop {s : State} (h : 0 < s.sp.val) : exec .ret s = .next (s.returned h) := execRet_pop h

theorem returned_sp {s : State} (h : 0 < s.sp.val) : (s.returned h).sp.val = s.sp.val - 1 := rfl

theorem returned_onlyChanges (s : State) (h : 0 < s.sp.val) : OnlyChanges [.sp, .pc] s (s.returned h) :=
  onlyChanges_sp_pc s _ _

theorem returned_pc {s : State} (h : 0 < s.sp.val) {k : Fin 16} (hk : s.sp.val = k.val + 1) :
    (s.returned h).pc = s.stack[k] := by
  have hidx : s.sp.val - 1 = k.val := by omega
  simp [State.returned, hidx]

/-- Settles O27: with a word on the stack, RET pops it into `pc`. -/
theorem returnPopsIntoPc : Obligations.ReturnPopsIntoPc := by
  unfold Obligations.ReturnPopsIntoPc
  intro s k hk
  have h : 0 < s.sp.val := hk ▸ Nat.succ_pos _
  exact ⟨decode_encode .ret, s.returned h, exec_ret_pop h, returned_pc h hk, by rw [returned_sp, hk]; rfl,
    returned_onlyChanges s h⟩

/-! ### Calls and returns in a row -/

theorem callAll_cons {s t : State} {after : Word} {target : Addr12} {rest : List (Word × Addr12)}
    (h : exec (.call target) (s.setPc after) = .next t) : callAll ((after, target) :: rest) s = callAll rest t := by
  rw [callAll, h]

theorem returnAll_succ {k : Nat} {s t : State} (h : exec .ret s = .next t) :
    returnAll (k + 1) s = (returnAll k t).map fun r => (t.pc :: r.1, r.2) := by
  rw [returnAll, h]

/-- One more return after `k` of them adds its address at the end. -/
theorem returnAll_snoc {k : Nat} : ∀ {s u w : State} {l : List Word}, returnAll k s = some (l, u) →
    exec .ret u = .next w → returnAll (k + 1) s = some (l ++ [w.pc], w) := by
  induction k with
  | zero =>
    rintro s u w l ⟨⟩ hret
    rw [returnAll_succ hret]
    rfl
  | succ k ih =>
    intro s u w l hall hret
    obtain ⟨t, ht⟩ := exec_next .ret s
    rw [returnAll_succ ht] at hall ⊢
    obtain ⟨⟨l', u'⟩, hl, he⟩ := Option.map_eq_some_iff.1 hall
    cases he
    rw [ih hl hret]
    rfl

/-- A part that is the same after all need not be listed. -/
theorem OnlyChanges.erase {p : Part} {ps : List Part} {s t : State} (h : OnlyChanges (p :: ps) s t)
    (hp : Part.Same s t p) : OnlyChanges ps s t := by
  intro q hq
  by_cases hqp : q = p
  · exact hqp ▸ hp
  · exact h q (by simp [hqp, hq])

/-- The calls of a list and as many returns. The slots below the first call's are kept, which is what the return of
an earlier call reads. -/
theorem callAll_returnAll (calls : List (Word × Addr12)) : ∀ s : State, s.sp.val + calls.length ≤ 16 →
    ∃ t u, callAll calls s = .next t ∧ t.sp.val = s.sp.val + calls.length ∧
      returnAll calls.length t = some ((calls.map Prod.fst).reverse, u) ∧ u.sp = s.sp ∧
      (∀ j : Fin 16, j.val < s.sp.val → u.stack[j] = s.stack[j]) ∧ OnlyChanges [.pc, .stack] s u := by
  induction calls with
  | nil => exact fun s _ => ⟨s, s, rfl, rfl, rfl, rfl, fun _ _ => rfl, .refl _ s⟩
  | cons call rest ih =>
    obtain ⟨after, target⟩ := call
    intro s hfit
    rw [List.length_cons] at hfit ⊢
    have h : s.sp.val < 16 := by omega
    have hcall := exec_call_push h after target
    have hsp := called_sp s after target h
    have honly := called_onlyChanges s after target h
    have hstack := called_stack s after target h
    generalize s.called after target h = c at hcall hsp honly hstack
    obtain ⟨t, u, hcalls, htsp, hrets, husp, hslots, hrest⟩ := ih c (by omega)
    have hu : u.sp.val = s.sp.val + 1 := (congrArg Fin.val husp).trans hsp
    have hpos : 0 < u.sp.val := by omega
    have hpc : (u.returned hpos).pc = after := by
      rw [returned_pc hpos (k := ⟨s.sp.val, h⟩) hu, hslots _ (by rw [hsp]; exact Nat.lt_succ_self _), hstack,
        if_pos rfl]
    have hback : (u.returned hpos).sp = s.sp := Fin.ext (by rw [returned_sp, hu]; rfl)
    refine ⟨t, u.returned hpos, (callAll_cons hcall).trans hcalls, by omega, ?_, hback, fun j hj => ?_, ?_⟩
    · rw [returnAll_snoc hrets (exec_ret_pop hpos), hpc, List.map_cons, List.reverse_cons]
    · exact (hslots j (by omega)).trans ((hstack j).trans (if_neg (by omega)))
    · exact (honly.trans ((hrest.mono (by simp)).trans ((returned_onlyChanges u hpos).mono (by simp)))).erase hback

/-- Settles O29: by induction on the calls, each return reads the slot its call wrote. -/
theorem nestedCallsReturnInReverseOrder : Obligations.NestedCallsReturnInReverseOrder := by
  unfold Obligations.NestedCallsReturnInReverseOrder
  intro calls s hfit
  obtain ⟨t, u, hcalls, htsp, hrets, husp, _, honly⟩ := callAll_returnAll calls s hfit
  exact ⟨t, u, hcalls, htsp, hrets, husp, honly⟩

end Sys2Proof.Machine
end

section
/-! What no instruction, or only one, reads (`10_state.md` R27, R28; `40_cycle.md` R95, R97). A remap changes the parts
that few instructions touch; an instruction that touches none of the changed ones does the same to the remapped state,
and its answer is remapped. -/

namespace Sys2Proof.Machine

/-- A change of the parts that few instructions read, each by a function of its own. -/
structure Remap where
  st : Byte → Byte := id
  video : Video → Video := id
  rndPort : Option Byte → Option Byte := id
  stack : Vector Word 16 → Vector Word 16 := id

def State.remap (m : Remap) (s : State) : State :=
  { s with st := m.st s.st, video := m.video s.video, rndPort := m.rndPort s.rndPort, stack := m.stack s.stack }

/-- The remap keeps whatever of its parts the instruction reads or writes. -/
def Remap.Keeps (m : Remap) : Instr → Prop
  | .ldSTVx _ => m.st = id
  | .cls | .drw _ _ _ => m.video = id
  | .rnd _ _ => m.rndPort = id
  | .call _ | .ret => m.stack = id
  | _ => True

theorem remap_skipIf (m : Remap) (s : State) (c : Bool) : (s.skipIf c).remap m = (s.remap m).skipIf c := by
  cases c <;> rfl

theorem remap_storeEach (m : Remap) (rs : List Reg) (s : State) :
    (storeEach rs s).remap m = storeEach rs (s.remap m) := by
  induction rs generalizing s with
  | nil => rfl
  | cons r rs ih => exact ih (s.memWrite _ _)

theorem remap_loadEach (m : Remap) (rs : List Reg) (s : State) :
    (loadEach rs s).remap m = loadEach rs (s.remap m) := by
  induction rs generalizing s with
  | nil => rfl
  | cons r rs ih => exact ih (s.setV _ _)

theorem execRet_remap {m : Remap} (hm : m.stack = id) {s t : State} (h : execRet s = .next t) :
    execRet (s.remap m) = .next (t.remap m) := by
  obtain ⟨st, video, rndPort, stack⟩ := m
  obtain rfl : stack = id := hm
  obtain ⟨hp, rfl⟩ | ⟨h0, hpol, rfl⟩ | ⟨h0, hpol, rfl⟩ := execRet_cases h
  · exact execRet_pop (s := s.remap _) hp
  · exact execRet_fault h0 hpol
  · exact execRet_ignore h0 hpol

theorem execCall_remap {m : Remap} (hm : m.stack = id) {nnn : Addr12} {s t : State} (h : execCall nnn s = .next t) :
    execCall nnn (s.remap m) = .next (t.remap m) := by
  obtain ⟨st, video, rndPort, stack⟩ := m
  obtain rfl : stack = id := hm
  obtain ⟨hp, rfl⟩ | ⟨h16, hpol, rfl⟩ | ⟨h16, hpol, rfl⟩ := execCall_cases h
  · exact execCall_push (s := s.remap _) nnn hp
  · exact execCall_fault nnn h16 hpol
  · exact execCall_ignore nnn h16 hpol

theorem execLdVxK_remap (m : Remap) {x : Reg} {s t : State} (h : execLdVxK x s = .next t) :
    execLdVxK x (s.remap m) = .next (t.remap m) := by
  obtain ⟨k, hk, rfl⟩ | ⟨hk, rfl⟩ := execLdVxK_cases h
  · exact execLdVxK_down (s := s.remap m) hk
  · exact execLdVxK_up (s := s.remap m) hk

/-- An instruction does the same to a state whose parts it does not touch were changed. -/
theorem exec_remap {m : Remap} {i : Instr} (hm : m.Keeps i) {s t : State} (h : exec i s = .next t) :
    exec i (s.remap m) = .next (t.remap m) := by
  cases i with
  | ret => exact execRet_remap hm h
  | call => exact execCall_remap hm h
  | ldVxK => exact execLdVxK_remap m h
  | seByte | sneByte | seReg | sneReg | skp | sknp => cases h; exact congrArg _ (remap_skipIf m s _).symm
  | storeRegs => cases h; exact congrArg _ (remap_storeEach m _ s).symm
  | loadRegs => cases h; exact congrArg _ (remap_loadEach m _ s).symm
  | ldSTVx =>
    obtain ⟨st, video, rndPort, stack⟩ := m
    obtain rfl : st = id := hm
    cases h; rfl
  | cls | drw =>
    obtain ⟨st, video, rndPort, stack⟩ := m
    obtain rfl : video = id := hm
    cases h; rfl
  | rnd =>
    obtain ⟨st, video, rndPort, stack⟩ := m
    obtain rfl : rndPort = id := hm
    cases h; rfl
  | _ => cases h; rfl

/-- Settles O18: LD ST, Vx overwrites whatever ST was, and a change of ST is a remap the others keep. -/
theorem noInstructionReadsTheSoundTimer : Obligations.NoInstructionReadsTheSoundTimer := by
  unfold Obligations.NoInstructionReadsTheSoundTimer
  intro i s t b h
  have unread (hm : Remap.Keeps { st := fun _ => b } i) := exec_remap hm h
  cases i with
  | ldSTVx x => cases h; rw [if_pos ⟨x, rfl⟩]; rfl
  | _ => rw [if_neg (by simp)]; exact unread (by simp [Remap.Keeps])

/-- Settles O19: CLS overwrites whatever the screen was, and a change of the screen is a remap the others but DRW
keep. -/
theorem onlyDrawReadsTheScreen : Obligations.OnlyDrawReadsTheScreen := by
  unfold Obligations.OnlyDrawReadsTheScreen
  intro i s t vid hi h
  have unread (hm : Remap.Keeps { video := fun _ => vid } i) := exec_remap hm h
  cases i with
  | drw x y n => exact absurd rfl (hi x y n)
  | cls => cases h; rfl
  | _ => rw [if_neg (by simp)]; exact unread (by simp [Remap.Keeps])

theorem exec_setRndPort {i : Instr} (hi : ∀ x kk, i ≠ .rnd x kk) {s t : State} (h : exec i s = .next t)
    (r : Option Byte) : exec i (s.setRndPort r) = .next (t.setRndPort r) := by
  have unread (hm : Remap.Keeps { rndPort := fun _ => r } i) := exec_remap hm h
  cases i with
  | rnd x kk => exact absurd rfl (hi x kk)
  | _ => exact unread (by simp [Remap.Keeps])

/-- Settles O20: a change of the port is a remap that every instruction but RND keeps. -/
theorem onlyRndReadsTheRandomByte : Obligations.OnlyRndReadsTheRandomByte := by
  unfold Obligations.OnlyRndReadsTheRandomByte
  exact fun _ _ _ r hi h => exec_setRndPort hi h r

/-! ### The slots at or above SP -/

/-- The first `n` slots are the same in both stacks. -/
def SameSlotsBelow (n : Nat) (a b : Vector Word 16) : Prop := ∀ k : Fin 16, k.val < n → a[k] = b[k]

theorem execRet_otherSlots {s t : State} {other : Vector Word 16} (hs : SameSlotsBelow s.sp.val other s.stack)
    (h : execRet s = .next t) : execRet { s with stack := other } = .next { t with stack := other } := by
  obtain ⟨hp, rfl⟩ | ⟨h0, hpol, rfl⟩ | ⟨h0, hpol, rfl⟩ := execRet_cases h
  · have htop : other[s.sp.val - 1] = s.stack[s.sp.val - 1] := hs ⟨s.sp.val - 1, by omega⟩ (Nat.sub_lt hp Nat.one_pos)
    rw [← htop]
    exact execRet_pop (s := { s with stack := other }) hp
  · exact execRet_fault h0 hpol
  · exact execRet_ignore h0 hpol

/-- No instruction but CALL grows the stack or writes a slot. -/
theorem exec_stack_shrinks {i : Instr} (hi : ∀ nnn, i ≠ .call nnn) {s t : State} (h : exec i s = .next t) :
    t.stack = s.stack ∧ t.sp.val ≤ s.sp.val := by
  have honly := exec_onlyChanges h
  cases i with
  | call nnn => exact absurd rfl (hi nnn)
  | ret =>
    refine ⟨honly .stack (by simp [mayChange]), ?_⟩
    obtain ⟨_, rfl⟩ | ⟨_, _, rfl⟩ | ⟨_, _, rfl⟩ := execRet_cases h
    · exact Nat.sub_le _ _
    · exact le_rfl
    · exact le_rfl
  | _ => exact ⟨honly .stack (by simp [mayChange]), (congrArg Fin.val (honly .sp (by simp [mayChange]))).le⟩

/-- No instruction but CALL notices other slots at or above SP. -/
theorem exec_otherSlots {i : Instr} (hi : ∀ nnn, i ≠ .call nnn) {s t : State} {other : Vector Word 16}
    (hs : SameSlotsBelow s.sp.val other s.stack) (h : exec i s = .next t) :
    exec i { s with stack := other } = .next { t with stack := other } := by
  have unread (hm : Remap.Keeps { stack := fun _ => other } i) := exec_remap hm h
  cases i with
  | call nnn => exact absurd rfl (hi nnn)
  | ret => exact execRet_otherSlots hs h
  | _ => exact unread (by simp [Remap.Keeps])

/-- `t'` is `t` but for its slots at or above the SP of `t`. -/
def AlikeBelowSP (t t' : State) : Prop := { t' with stack := t.stack } = t ∧ SameSlotsBelow t.sp.val t'.stack t.stack

theorem execCall_otherSlots {nnn : Addr12} {s t : State} {other : Vector Word 16}
    (hs : SameSlotsBelow s.sp.val other s.stack) (h : execCall nnn s = .next t) :
    ∃ t', execCall nnn { s with stack := other } = .next t' ∧ AlikeBelowSP t t' := by
  obtain ⟨hp, rfl⟩ | ⟨h16, hpol, rfl⟩ | ⟨h16, hpol, rfl⟩ := execCall_cases h
  · refine ⟨_, execCall_push (s := { s with stack := other }) nnn hp, rfl, fun k hk => ?_⟩
    have hpushed (slots : Vector Word 16) : (slots.set s.sp.val s.pc hp)[k] =
        if s.sp.val = k.val then s.pc else slots[k] :=
      Vector.getElem_set hp k.isLt
    have hk : k.val < s.sp.val + 1 := hk
    change (other.set s.sp.val s.pc hp)[k] = (s.stack.set s.sp.val s.pc hp)[k]
    rw [hpushed, hpushed]
    split
    · rfl
    · exact hs k (by omega)
  · exact ⟨_, execCall_fault nnn h16 hpol, rfl, hs⟩
  · exact ⟨_, execCall_ignore nnn h16 hpol, rfl, hs⟩

/-- Settles O21: RET reads the slot below SP, CALL overwrites the slot at SP, and no other instruction touches the
stack. -/
theorem stackSlotsAboveSPAreNeverRead : Obligations.StackSlotsAboveSPAreNeverRead := by
  unfold Obligations.StackSlotsAboveSPAreNeverRead
  intro i s t other hs h
  by_cases hi : ∃ nnn, i = .call nnn
  · obtain ⟨nnn, rfl⟩ := hi
    exact execCall_otherSlots hs h
  · have hi : ∀ nnn, i ≠ .call nnn := not_exists.1 hi
    obtain ⟨hstack, hsp⟩ := exec_stack_shrinks hi h
    exact ⟨_, exec_otherSlots hi hs h, rfl, fun k hk => (hs k (hk.trans_le hsp)).trans (by rw [hstack])⟩

end Sys2Proof.Machine
end

section
/-! The rest of the ALU (`42_alu.md` R123 to R125, R127 to R133): logic, the subtracts and the shifts, whose flag is
written before the result is formed, and the random byte. -/

namespace Sys2Proof.Machine

/-- Settles O6: the dispatch passes the ignored field to no meaning. -/
theorem ignoredFieldsDoNotMatter : Obligations.IgnoredFieldsDoNotMatter := by
  unfold Obligations.IgnoredFieldsDoNotMatter
  exact fun _ _ _ _ _ => ⟨rfl, rfl, rfl, rfl⟩

/-! ### Logic -/

/-- Settles O31: each of the three instructions writes `x` alone, with a byte formed bit by bit. -/
theorem logicIsBitwiseAndSetsNoFlag : Obligations.LogicIsBitwiseAndSetsNoFlag := by
  unfold Obligations.LogicIsBitwiseAndSetsNoFlag
  intro x y s
  refine ⟨⟨decode_spellXY (c := 0x8) (n := 1) rfl, _, rfl, fun k _ => ?_, setV_frame s x _⟩,
    ⟨decode_spellXY (c := 0x8) (n := 2) rfl, _, rfl, fun k _ => ?_, setV_frame s x _⟩,
    ⟨decode_spellXY (c := 0x8) (n := 3) rfl, _, rfl, fun k _ => ?_, setV_frame s x _⟩⟩
  · rw [getV_setV_self, BitVec.getLsbD_or]
  · rw [getV_setV_self, BitVec.getLsbD_and]
  · rw [getV_setV_self, BitVec.getLsbD_xor]

/-! ### The subtracts -/

/-- What the subtracts leave: the flag of `Va - Vb` written, and then the difference, as the registers read with that
flag, in `Vx`. -/
def State.subtracted (s : State) (x a b : Reg) : State :=
  let flagged := s.setFlag (notBorrow (s.getV a) (s.getV b))
  flagged.setV x (flagged.getV a - flagged.getV b)

theorem exec_subReg (x y : Reg) (s : State) : exec (.subReg x y) s = .next (s.subtracted x x y) := rfl

theorem exec_subnReg (x y : Reg) (s : State) : exec (.subnReg x y) s = .next (s.subtracted x y x) := rfl

/-- A register as a subtract reads it: VF holds the flag, every other register its value before. -/
def operandAfterFlag (s : State) (flag : Nat) (r : Reg) : Nat := if r = VF then flag else (s.getV r).toNat

theorem operandAfterFlag_VF {s : State} {flag : Nat} : operandAfterFlag s flag VF = flag := if_pos rfl

theorem operandAfterFlag_ne {s : State} {flag : Nat} {r : Reg} (h : r ≠ VF) :
    operandAfterFlag s flag r = (s.getV r).toNat := if_neg h

theorem notBorrow_iff {a b : Byte} : notBorrow a b = true ↔ a.toNat ≥ b.toNat := decide_eq_true_iff

theorem toNat_setFlag_getV (s : State) {c : Bool} {flag : Nat} (h : (flagByte c).toNat = flag) (r : Reg) :
    ((s.setFlag c).getV r).toNat = operandAfterFlag s flag r := by
  by_cases hr : r = VF
  · rw [hr, setFlag_getV_VF, operandAfterFlag_VF, h]
  · rw [setFlag_getV_ne s hr, operandAfterFlag_ne hr]

theorem subtracted_frame (s : State) (x a b : Reg) :
    RegsKept [x, VF] s (s.subtracted x a b) ∧ OnlyChanges [.v] s (s.subtracted x a b) := setFlag_setV_frame s x _ _

section
variable {s : State} {x a b : Reg} {flag : Nat} (h : flag = if (s.getV a).toNat ≥ (s.getV b).toNat then 1 else 0)
include h

theorem subtracted_getV_VF (hx : x ≠ VF) : ((s.subtracted x a b).getV VF).toNat = flag := by
  rw [State.subtracted, getV_setV_ne _ hx.symm, setFlag_getV_VF, toNat_flagByte notBorrow_iff, h]

theorem subtracted_getV_self : ((s.subtracted x a b).getV x).toNat =
    (256 + operandAfterFlag s flag a - operandAfterFlag s flag b) % 256 := by
  have hflag := (toNat_flagByte (notBorrow_iff (a := s.getV a) (b := s.getV b))).trans h.symm
  rw [← toNat_setFlag_getV s hflag, ← toNat_setFlag_getV s hflag, State.subtracted, getV_setV_self, BitVec.toNat_sub]
  omega

end

/-- Settles O33: VF holds the flag unless the difference is written over it, and the difference reads its two
registers after the flag. -/
theorem subtractSetsNotBorrow : Obligations.SubtractSetsNotBorrow := by
  unfold Obligations.SubtractSetsNotBorrow
  intro x y s
  refine ⟨⟨decode_spellXY (c := 0x8) (n := 5) rfl, _, exec_subReg x y s, (subtracted_frame s x x y).1,
      (subtracted_frame s x x y).2, fun flag h => ⟨subtracted_getV_VF h, ?_⟩⟩,
    ⟨decode_spellXY (c := 0x8) (n := 7) rfl, _, exec_subnReg x y s, (subtracted_frame s x y x).1,
      (subtracted_frame s x y x).2, fun flag h => ⟨subtracted_getV_VF h, ?_⟩⟩⟩
  · refine ⟨fun hx hy => ?_, fun hx hy => ?_, fun hx hy => ?_, fun hx hy => ?_⟩
    · rw [subtracted_getV_self h, operandAfterFlag_ne hx, operandAfterFlag_ne hy]
    · rw [subtracted_getV_self h, operandAfterFlag_ne hx, hy, operandAfterFlag_VF]
    · subst hx; rw [subtracted_getV_self h, operandAfterFlag_VF, operandAfterFlag_ne hy]
    · subst hx; rw [subtracted_getV_self h, hy, operandAfterFlag_VF, Nat.add_sub_cancel]
  · refine ⟨fun hx hy => ?_, fun hx hy => ?_, fun hx hy => ?_, fun hx hy => ?_⟩
    · rw [subtracted_getV_self h, operandAfterFlag_ne hx, operandAfterFlag_ne hy]
    · rw [subtracted_getV_self h, operandAfterFlag_ne hx, hy, operandAfterFlag_VF]
    · subst hx; rw [subtracted_getV_self h, operandAfterFlag_VF, operandAfterFlag_ne hy]
    · subst hx; rw [subtracted_getV_self h, hy, operandAfterFlag_VF, Nat.add_sub_cancel]

/-! ### The shifts -/

theorem decode_spellXYN {i : Instr} {c : Nibble} {x : Reg} {y n : Nibble} (h : encode i = encodeXYN c x y n) :
    decode (spellXYN c.toNat x y.toNat n.toNat) = .ok i := by
  rw [spellXYN_eq, ← h, decode_encode]

/-- What the shifts leave: the flag written, and then `Vx`, as it reads with that flag, shifted. -/
def State.shifted (s : State) (x : Reg) (out : Bool) (shift : Byte → Byte) : State :=
  (s.setFlag out).setV x (shift ((s.setFlag out).getV x))

theorem exec_shr (x : Reg) (y : Nibble) (s : State) :
    exec (.shr x y) s = .next (s.shifted x (outOfRight (s.getV x)) (· >>> 1)) := rfl

theorem exec_shl (x : Reg) (y : Nibble) (s : State) :
    exec (.shl x y) s = .next (s.shifted x (outOfLeft (s.getV x)) (· <<< 1)) := rfl

theorem shifted_frame (s : State) (x : Reg) (out : Bool) (shift : Byte → Byte) :
    RegsKept [x, VF] s (s.shifted x out shift) ∧ OnlyChanges [.v] s (s.shifted x out shift) :=
  setFlag_setV_frame s x _ out

theorem shifted_getV_self (s : State) {x : Reg} (hx : x ≠ VF) (out : Bool) (shift : Byte → Byte) :
    (s.shifted x out shift).getV x = shift (s.getV x) := by
  rw [State.shifted, getV_setV_self, setFlag_getV_ne s hx]

theorem shifted_getV_VF (s : State) {x : Reg} (hx : x ≠ VF) (out : Bool) (shift : Byte → Byte) :
    (s.shifted x out shift).getV VF = flagByte out := by
  rw [State.shifted, getV_setV_ne _ hx.symm, setFlag_getV_VF]

/-- Where `x` is VF, the flag is what is shifted. -/
theorem shifted_VF_getV_VF (s : State) (out : Bool) (shift : Byte → Byte) :
    (s.shifted VF out shift).getV VF = shift (flagByte out) := by
  rw [State.shifted, getV_setV_self, setFlag_getV_VF]

theorem toNat_flagByte_eq_toNat (c : Bool) : (flagByte c).toNat = c.toNat := by cases c <;> rfl

theorem toNat_outOfRight (b : Byte) : (flagByte (outOfRight b)).toNat = b.toNat % 2 :=
  (toNat_flagByte_eq_toNat _).trans (by rw [outOfRight, ← BitVec.testBit_toNat, Nat.toNat_testBit]; omega)

theorem toNat_outOfLeft (b : Byte) : (flagByte (outOfLeft b)).toNat = b.toNat / 128 :=
  (toNat_flagByte_eq_toNat _).trans (by
    have := b.isLt
    rw [outOfLeft, ← BitVec.testBit_toNat, Nat.toNat_testBit]; omega)

theorem toNat_ushiftRight_one (b : Byte) : (b >>> 1).toNat = b.toNat / 2 := by
  rw [BitVec.toNat_ushiftRight, Nat.shiftRight_eq_div_pow, pow_one]

theorem toNat_shiftLeft_one (b : Byte) : (b <<< 1).toNat = b.toNat * 2 % 256 := by
  rw [BitVec.toNat_shiftLeft, Nat.shiftLeft_eq, pow_one]

/-- Settles O34: the flag is the bit moved out, and where `x` is VF it is shifted itself, which moves it out to the
right and doubles it to the left. -/
theorem shiftsSetTheBitMovedOut : Obligations.ShiftsSetTheBitMovedOut := by
  unfold Obligations.ShiftsSetTheBitMovedOut
  intro x y s
  refine ⟨⟨decode_spellXYN (c := 0x8) (n := 6) rfl, _, exec_shr x y s, fun hx => ⟨?_, ?_⟩, ?_, shifted_frame s x _ _⟩,
    ⟨decode_spellXYN (c := 0x8) (n := 14) rfl, _, exec_shl x y s, fun hx => ⟨?_, ?_⟩, ?_, shifted_frame s x _ _⟩⟩
  · rw [shifted_getV_self s hx, toNat_ushiftRight_one]
  · rw [shifted_getV_VF s hx, toNat_outOfRight]
  · rintro rfl
    rw [shifted_VF_getV_VF, toNat_ushiftRight_one, toNat_outOfRight]
    omega
  · rw [shifted_getV_self s hx, toNat_shiftLeft_one]
  · rw [shifted_getV_VF s hx, toNat_outOfLeft]
  · rintro rfl
    have := (s.getV VF).isLt
    rw [shifted_VF_getV_VF, toNat_shiftLeft_one, toNat_outOfLeft]
    omega

/-! ### The random byte -/

theorem exec_rnd (x : Reg) (kk : Byte) (s : State) :
    exec (.rnd x kk) s = .next (s.setV x (s.rndByte &&& kk)).countDraw := rfl

theorem rndByte_of_given {s : State} {r : Byte} (h : s.rndPort = some r) : s.rndByte = r := by
  rw [State.rndByte, h, Option.getD_some]

/-- A byte with no bit outside the mask is itself under it. -/
theorem and_eq_left_of_bits {b kk : Byte} (h : ∀ k, b.getLsbD k = true → kk.getLsbD k = true) : b &&& kk = b := by
  apply BitVec.eq_of_getLsbD_eq
  intro k _
  rw [BitVec.getLsbD_and, Bool.and_eq_left_iff_imp]
  exact h k

theorem draw_frame (s : State) (x : Reg) (b : Byte) :
    RegsKept [x] s (s.setV x b).countDraw ∧ OnlyChanges [.v, .draws] s (s.setV x b).countDraw :=
  ⟨(setV_frame s x b).1,
    ((onlyChanges_setV s x b).mono (by simp)).trans ((onlyChanges_countDraw _).mono (by simp))⟩

/-- Settles O35: the result is the drawn byte under the mask, and a byte under the mask is the result of drawing
itself. -/
theorem randomByteUnderAMask : Obligations.RandomByteUnderAMask := by
  unfold Obligations.RandomByteUnderAMask
  intro x kk s
  refine ⟨decode_spellXK (c := 0xC) rfl, ⟨_, exec_rnd x kk s, fun k hk => ?_, fun r hr k => ?_, draw_frame s x _⟩,
    fun b hb => ⟨b, _, exec_rnd x kk _, ?_⟩⟩
  · rw [countDraw_getV, getV_setV_self, BitVec.getLsbD_and, hk, Bool.and_false]
  · rw [countDraw_getV, getV_setV_self, BitVec.getLsbD_and, rndByte_of_given hr]
  · rw [countDraw_getV, getV_setV_self, rndByte_of_given rfl, and_eq_left_of_bits hb]

end Sys2Proof.Machine
end

section
/-! Memory, `I` and the transfers of registers (`20_memory.md` R50, R52; `43_index_memory.md` R151, R154, R155): the
laws of the memory form as the obligations state them, and what a store leaves is what a load through the same `I`
reads. -/

namespace Sys2Proof.Machine

/-! ### Memory -/

/-- Settles O13: the write reaches one cell, and keeps the form. -/
theorem readReturnsTheLastWrite : Obligations.ReadReturnsTheLastWrite := by
  unfold Obligations.ReadReturnsTheLastWrite
  exact fun _ a k b h => ⟨memWrite_wf h a b, memRead_memWrite h a k b⟩

/-- Settles O14: a memory in canonical form lists exactly the bytes that do not read as 0, in order. -/
theorem canonicalMemoriesThatReadAlikeAreEqual : Obligations.CanonicalMemoriesThatReadAlikeAreEqual := by
  unfold Obligations.CanonicalMemoriesThatReadAlikeAreEqual
  exact fun _ _ => wfFrom_ext

theorem memRead_mod (s : State) (a : Nat) : s.memRead (a % memSize) = s.memRead a :=
  congrArg s.mem.read (Nat.mod_mod a memSize)

/-! ### ADD I, Vx -/

/-- Settles O37: a word addition into `I`, which no other part sees. -/
theorem addToIndexWrapsAt16Bits : Obligations.AddToIndexWrapsAt16Bits := by
  unfold Obligations.AddToIndexWrapsAt16Bits
  refine fun x s => ⟨decode_spellXK (c := 0xF) (kk := 0x1E) rfl, s.setI _, rfl, ?_, onlyChanges_setI s _⟩
  rw [setI_i, BitVec.toNat_add, toNat_wordOperand]

/-! ### Registers stored and loaded -/

theorem exec_storeRegs (x : Reg) (s : State) : exec (.storeRegs x) s = .next (storeEach (regsUpTo x) s) := rfl

theorem exec_loadRegs (x : Reg) (s : State) : exec (.loadRegs x) s = .next (loadEach (regsUpTo x) s) := rfl

theorem storeEach_regsUpTo_memRead {s : State} (h : s.mem.wf = true) {x r : Reg} (hr : r ≤ x) :
    (storeEach (regsUpTo x) s).memRead (s.effAddr r.val) = s.getV r :=
  (memRead_mod _ _).trans (storeEach_memRead _ h (nodup_regsUpTo x) r (mem_regsUpTo.2 hr))

theorem loadEach_regsUpTo_getV (s : State) {x r : Reg} (hr : r ≤ x) :
    (loadEach (regsUpTo x) s).getV r = s.memRead (s.effAddr r.val) := by
  rw [loadEach_getV, if_pos (mem_regsUpTo.2 hr)]
  exact (memRead_mod _ _).symm

/-- Settles O39: each register listed is read back at its own cell. -/
theorem registersAreStored : Obligations.RegistersAreStored := by
  unfold Obligations.RegistersAreStored
  exact fun x s h => ⟨decode_spellXK (c := 0xF) (kk := 0x55) rfl, _, exec_storeRegs x s,
    fun _ hr => ⟨storeEach_regsUpTo_memRead h hr, rfl⟩, bytesKept_storeEach _ h, onlyChanges_storeEach _ s⟩

/-- Settles O40: each register listed takes the byte of its own cell. -/
theorem registersAreLoaded : Obligations.RegistersAreLoaded := by
  unfold Obligations.RegistersAreLoaded
  exact fun x s => ⟨decode_spellXK (c := 0xF) (kk := 0x65) rfl, _, exec_loadRegs x s,
    fun _ hr => loadEach_regsUpTo_getV s hr, regsKept_loadEach _ s, onlyChanges_loadEach _ s⟩

/-- Settles O41: the store keeps `I`, so the load reads the cells of the store. -/
theorem storedRegistersAreLoadedBack : Obligations.StoredRegistersAreLoadedBack := by
  unfold Obligations.StoredRegistersAreLoadedBack
  intro x s t between h hs
  have hi : t.i = s.i := exec_onlyChanges hs .i (by simp [mayChange])
  cases hs
  refine ⟨_, exec_loadRegs x _, fun r hr => ?_⟩
  rw [loadEach_regsUpTo_getV _ hr, ← storeEach_regsUpTo_memRead h hr, State.effAddr, State.indexed, hi]
  rfl

end Sys2Proof.Machine
end

section
/-! The draw (`44_display.md` R172 to R177): its sprite's pixels are each toggled once, so a second draw of the same
sprite toggles them back. -/

namespace Sys2Proof.Machine

/-- The pixels under the sprite of `DRW Vx, Vy, n`. -/
def State.sprite (s : State) (x y : Reg) (n : Nibble) : List (Fin 64 × Fin 32) :=
  spritePixels s (originColumn (s.getV x)) (originRow (s.getV y)) n.toNat

/-- The origin may be reduced before the offset is added, or after (R173, R174). -/
theorem mem_sprite {s : State} {x y : Reg} {n : Nibble} {px : Fin 64} {py : Fin 32} :
    (px, py) ∈ s.sprite x y n ↔ SpriteCovers s x y n px py := by
  simp only [State.sprite, mem_spritePixels, originColumn, originRow, Nat.mod_add_mod]
  rfl

/-- One of the sprite's pixels is set. -/
def State.collides (s : State) (x y : Reg) (n : Nibble) : Bool := (s.sprite x y n).any fun q => s.video.pixel q.1 q.2

theorem collides_iff {s : State} {x y : Reg} {n : Nibble} :
    s.collides x y n = true ↔ ∃ px py, SpriteCovers s x y n px py ∧ s.video.pixel px py = true := by
  simp only [State.collides, List.any_eq_true, Prod.exists, mem_sprite]

theorem collides_eq_false_iff {s : State} {x y : Reg} {n : Nibble} :
    s.collides x y n = false ↔ ∀ px py, SpriteCovers s x y n px py → s.video.pixel px py = false := by
  rw [← Bool.not_eq_true, collides_iff]
  simp only [not_exists, not_and, Bool.not_eq_true]

/-- What a draw leaves on the screen and in VF. -/
theorem exec_drw_spec {x y : Reg} {n : Nibble} {s t : State} (h : exec (.drw x y n) s = .next t) :
    (∀ px py, t.video.pixel px py = (s.video.pixel px py != decide ((px, py) ∈ s.sprite x y n))) ∧
      t.getV VF = flagByte (s.collides x y n) := by
  have hn : n.toNat ≤ 32 := by have := n.isLt; omega
  obtain ⟨hpixels, hflag⟩ := drawSprite_spec s (originColumn (s.getV x)) (originRow (s.getV y)) hn s.video
  cases h
  exact ⟨hpixels, (setFlag_getV_VF _ _).trans (congrArg flagByte hflag)⟩

theorem flagByte_eq_one_iff {c : Bool} : flagByte c = 1 ↔ c = true := by cases c <;> decide

/-- Settles O43: the pixels of the sprite's list are those the sprite covers, and the flag says whether one was set. -/
theorem drawFlipsTheSpritePixels : Obligations.DrawFlipsTheSpritePixels := by
  unfold Obligations.DrawFlipsTheSpritePixels
  intro x y n s
  obtain ⟨t, h⟩ := exec_next (.drw x y n) s
  obtain ⟨hpixels, hflag⟩ := exec_drw_spec h
  refine ⟨decode_spellXY (c := 0xD) rfl, t, h, fun px py hc => ?_, fun px py hc => ?_, fun hset => ?_, fun hnone => ?_,
    exec_regsKept h, exec_onlyChanges h⟩
  · rw [hpixels, decide_eq_true (mem_sprite.2 hc), Bool.bne_true]
  · rw [hpixels, decide_eq_false (mt mem_sprite.1 hc), Bool.bne_false]
  · rw [hflag, flagByte_eq_one_iff, collides_iff]
    exact hset
  · exact hflag.trans (congrArg flagByte (collides_eq_false_iff.2 hnone))

/-- A draw that leaves its coordinate registers as they were leaves the sprite where it was. -/
theorem sprite_after_draw {x y : Reg} {n : Nibble} {s t : State} (h : exec (.drw x y n) s = .next t)
    (hx : t.getV x = s.getV x) (hy : t.getV y = s.getV y) : t.sprite x y n = s.sprite x y n := by
  have honly := exec_onlyChanges h
  rw [State.sprite, hx, hy]
  exact spritePixels_congr (honly .mem (by simp [mayChange])) (honly .i (by simp [mayChange])) _ _ _

/-- Settles O44: the second draw toggles the same pixels again, and collides with those the first one set. -/
theorem drawingTwiceRestoresTheScreen : Obligations.DrawingTwiceRestoresTheScreen := by
  unfold Obligations.DrawingTwiceRestoresTheScreen
  intro x y n s t h hx hy
  obtain ⟨u, hu⟩ := exec_next (.drw x y n) t
  obtain ⟨hfirst, _⟩ := exec_drw_spec h
  obtain ⟨hsecond, hflag⟩ := exec_drw_spec hu
  have hsprite := sprite_after_draw h hx hy
  refine ⟨u, hu, video_ext fun px py => ?_, ?_, ?_⟩
  · rw [hsecond, hfirst, hsprite, Bool.bne_assoc, bne_self_eq_false, Bool.bne_false]
  · rw [hflag, flagByte_eq_one_iff, State.collides, hsprite, List.any_eq_true, Prod.exists]
    refine exists_congr fun px => exists_congr fun py => ?_
    rw [hfirst]
    by_cases hmem : (px, py) ∈ s.sprite x y n <;> cases s.video.pixel px py <;> simp [hmem]
  · rw [hflag]
    cases t.collides x y n
    · exact .inl rfl
    · exact .inr rfl

/-- Settles O45: no pixel of a blank screen is set, and a sprite of no rows has no pixel. -/
theorem drawWithoutCollision : Obligations.DrawWithoutCollision := by
  unfold Obligations.DrawWithoutCollision
  intro x y n s t h
  obtain ⟨hpixels, hflag⟩ := exec_drw_spec h
  refine ⟨fun hblank => ?_, fun hn => ?_⟩
  · have hnone : s.collides x y n = false :=
      collides_eq_false_iff.2 fun px py _ => hblank ▸ pixel_clear px py
    exact hflag.trans (congrArg flagByte hnone)
  · subst hn
    exact ⟨video_ext fun px py => (hpixels px py).trans (Bool.bne_false _), hflag⟩

end Sys2Proof.Machine
end

section
/-! The step and its invariant (`40_cycle.md` R90 to R96, `60_exceptions.md` R211 to R216). A decoded instruction runs
after the pre-advance, so with `pc` from 2 to 4096; each field of the invariant is kept by every instruction from
there, and a raise is precise because the word of a decoded instruction is its encoding. -/

namespace Sys2Proof.Machine

/-! ### A step always answers, and when it executes nothing -/

theorem step_next (s : State) : ∃ t, step s = .next t := by
  cases hi : s.idle with
  | true => exact ⟨s, step_of_idle hi⟩
  | false =>
    cases hd : decode s.fetchWord with
    | ok i =>
      obtain ⟨t, ht⟩ := exec_next i s.preAdvance
      exact ⟨t, (step_of_decode hi hd).trans ht⟩
    | error e => exact ⟨s.preAdvance, step_of_unrecognized hi hd⟩

theorem idle_iff_quiescent {s : State} : s.idle = true ↔ s.Quiescent := by
  rw [← Bool.not_eq_false, idle_eq_false, State.Quiescent, not_and_or, or_comm, Nat.not_le]

/-- Settles O8: an unrecognized word leaves the pre-advance alone, and a quiescent core is idle. -/
theorem stepWithoutAnInstruction : Obligations.StepWithoutAnInstruction := by
  unfold Obligations.StepWithoutAnInstruction
  refine fun s => ⟨fun hrun hno => ?_, fun hq => step_of_idle (idle_iff_quiescent.2 hq)⟩
  cases hd : decode s.fetchWord with
  | ok i => exact absurd hd (hno i)
  | error e => exact step_of_unrecognized (idle_eq_false.2 hrun) hd

/-! ### What raises a fault -/

/-- The instruction raises the cause in this state, under the policy `fault` (R211, R212). -/
def RaisesCause (i : Instr) (s : State) (c : FaultCause) : Prop :=
  (c = .stackOverflow ∧ s.sp = 16 ∧ ∃ nnn, i = .call nnn) ∨ (c = .stackUnderflow ∧ s.sp = 0 ∧ i = .ret)

/-- An instruction that leaves a fault record where there was none has raised it (R214). -/
theorem exec_raises {i : Instr} {s t : State} {r : FaultRecord} (h : exec i s = .next t) (hnone : s.fault = none)
    (hr : t.fault = some r) : ∃ c, s.cfg.stackPolicy = .fault ∧ t = s.raise c (encode i) ∧ RaisesCause i s c := by
  have hkept (hp : t.fault = s.fault) : False := by simp [hp, hnone] at hr
  cases i with
  | ret =>
    obtain ⟨_, rfl⟩ | ⟨h0, hpol, rfl⟩ | ⟨_, _, rfl⟩ := execRet_cases h
    · exact (hkept rfl).elim
    · exact ⟨_, hpol, rfl, .inr ⟨rfl, h0, rfl⟩⟩
    · exact (hkept rfl).elim
  | call nnn =>
    obtain ⟨_, rfl⟩ | ⟨h16, hpol, rfl⟩ | ⟨_, _, rfl⟩ := execCall_cases h
    · exact (hkept rfl).elim
    · exact ⟨_, hpol, rfl, .inl ⟨rfl, h16, nnn, rfl⟩⟩
    · exact (hkept rfl).elim
  | _ => exact (hkept (exec_onlyChanges h .fault (by simp [mayChange]))).elim

/-- Settles O49: the record that a raise leaves carries its cause. -/
theorem onlyCallAndReturnRaise : Obligations.OnlyCallAndReturnRaise := by
  unfold Obligations.OnlyCallAndReturnRaise
  intro i s t r h hnone hr
  obtain ⟨c, hpol, rfl, hc⟩ := exec_raises h hnone hr
  cases hr
  exact ⟨hpol, hc⟩

/-! ### Each field of the invariant through one instruction -/

theorem storeThree_wf {s : State} (h : s.mem.wf = true) (b₀ b₁ b₂ : Byte) : (storeThree s b₀ b₁ b₂).mem.wf = true :=
  memWrite_wf (memWrite_wf (memWrite_wf h _ _) _ _) _ _

theorem exec_wf {i : Instr} {s t : State} (h : exec i s = .next t) (hw : s.mem.wf = true) : t.mem.wf = true := by
  cases i with
  | ldB => cases h; exact storeThree_wf hw _ _ _
  | storeRegs => cases h; exact storeEach_wf _ hw
  | loadRegs x => cases h; rw [loadEach_eq]; exact hw
  | ret => obtain ⟨_, rfl⟩ | ⟨_, _, rfl⟩ | ⟨_, _, rfl⟩ := execRet_cases h <;> exact hw
  | call => obtain ⟨_, rfl⟩ | ⟨_, _, rfl⟩ | ⟨_, _, rfl⟩ := execCall_cases h <;> exact hw
  | ldVxK => obtain ⟨_, _, rfl⟩ | ⟨_, rfl⟩ := execLdVxK_cases h <;> exact hw
  | seByte | sneByte | seReg | sneReg | skp | sknp => cases h; rw [skipIf_eq]; exact hw
  | _ => cases h; exact hw

/-- The slots hold addresses an instruction's `pc` can have (`10_state.md` R34). -/
def SlotsInRange (s : State) : Prop := ∀ k : Fin 16, s.stack[k].toNat ≤ 4096

theorem exec_slotsInRange {i : Instr} {s t : State} (h : exec i s = .next t) (hpc : s.pc.toNat ≤ 4096)
    (hs : SlotsInRange s) : SlotsInRange t := by
  by_cases hi : ∃ nnn, i = .call nnn
  · obtain ⟨nnn, rfl⟩ := hi
    obtain ⟨hfree, rfl⟩ | ⟨_, _, rfl⟩ | ⟨_, _, rfl⟩ := execCall_cases h
    · intro k
      change (s.called s.pc nnn hfree).stack[k].toNat ≤ 4096
      rw [called_stack]
      split
      · exact hpc
      · exact hs k
    · exact hs
    · exact hs
  · intro k
    rw [(exec_stack_shrinks (not_exists.1 hi) h).1]
    exact hs k

theorem toNat_add_two {w : Word} (h : w.toNat ≤ 4096) : (w + 2).toNat = w.toNat + 2 := by
  bv_omega

theorem toNat_sub_two_le {w : Word} (h : 2 ≤ w.toNat) : (w - 2).toNat ≤ w.toNat := by
  bv_omega

theorem skipIf_pc_le {s : State} (hpc : s.pc.toNat ≤ 4096) (c : Bool) : (s.skipIf c).pc.toNat ≤ 0x10FE := by
  cases c with
  | true => exact (toNat_add_two hpc).trans_le (by omega)
  | false => exact hpc.trans (by decide)

/-- From a `pc` the pre-advance can leave, an instruction leaves one of at most 0x10FE, the bound that JP V0 reaches
(R96). -/
theorem exec_pc_le {i : Instr} {s t : State} (h : exec i s = .next t) (hlow : 2 ≤ s.pc.toNat) (hpc : s.pc.toNat ≤ 4096)
    (hs : SlotsInRange s) : t.pc.toNat ≤ 0x10FE := by
  have hback : (s.pc - 2).toNat ≤ 0x10FE := (toNat_sub_two_le hlow).trans (by omega)
  have hjump (nnn : Addr12) : (addrOperand nnn).toNat ≤ 0x10FE := by
    rw [toNat_addrOperand]; have := nnn.isLt; omega
  cases i with
  | jp nnn => cases h; exact hjump nnn
  | jpV0 nnn =>
    cases h
    have := nnn.isLt
    have := (s.getV 0).isLt
    rw [setPc_pc, toNat_wordOperand_add_addrOperand]
    omega
  | seByte | sneByte | seReg | sneReg | skp | sknp => cases h; exact skipIf_pc_le hpc _
  | ret =>
    obtain ⟨hp, rfl⟩ | ⟨_, _, rfl⟩ | ⟨_, _, rfl⟩ := execRet_cases h
    · exact (hs ⟨s.sp.val - 1, by omega⟩).trans (by decide)
    · exact hback
    · exact hpc.trans (by decide)
  | call nnn =>
    obtain ⟨_, rfl⟩ | ⟨_, _, rfl⟩ | ⟨_, _, rfl⟩ := execCall_cases h
    · exact hjump nnn
    · exact hback
    · exact hjump nnn
  | ldVxK =>
    obtain ⟨_, _, rfl⟩ | ⟨_, rfl⟩ := execLdVxK_cases h
    · exact hpc.trans (by decide)
    · exact hback
  | _ =>
    have hkept : t.pc = s.pc := exec_onlyChanges h .pc (by simp [mayChange])
    rw [hkept]
    exact hpc.trans (by decide)

/-! ### The invariant -/

/-- Settles O10: memory is empty, no slot holds an address, and no fault is recorded. -/
theorem invariantAtReset : Obligations.InvariantAtReset := by
  unfold Obligations.InvariantAtReset
  exact ⟨rfl, by decide, by decide, fun _ hr => nomatch hr⟩

/-- A raise takes the pre-advance back, so that only the record is new. -/
theorem preAdvance_raise (s : State) (c : FaultCause) (w : Word) :
    s.preAdvance.raise c w = { s with fault := some ⟨c, s.pc, w⟩ } := by
  have hpc : s.pc + 2 - 2 = s.pc := BitVec.add_sub_cancel s.pc 2
  calc s.preAdvance.raise c w
    _ = { s with fault := some ⟨c, s.pc + 2 - 2, w⟩, pc := s.pc + 2 - 2 } := rfl
    _ = { s with fault := some ⟨c, s.pc, w⟩ } := by rw [hpc]

/-- The record of a raise names the policy, the address, the word there and the stack that caused it. -/
theorem recordPrecise_raise {s : State} {i : Instr} {c : FaultCause} (hpc : s.pc.toNat + 1 ≤ 4095)
    (hd : decode s.fetchWord = .ok i) (hpol : s.cfg.stackPolicy = .fault) (hc : RaisesCause i s c) :
    RecordPrecise { s with fault := some ⟨c, s.pc, encode i⟩ } ⟨c, s.pc, encode i⟩ where
  policy := hpol
  address := rfl
  executed := hpc
  word := encode_of_decode hd
  overflow := by
    rintro rfl
    obtain ⟨_, hsp, nnn, rfl⟩ | ⟨h, _⟩ := hc
    · exact ⟨hsp, nnn, rfl⟩
    · cases h
  underflow := by
    rintro rfl
    obtain ⟨h, _⟩ | ⟨_, hsp, rfl⟩ := hc
    · cases h
    · exact ⟨hsp, rfl⟩

theorem preAdvance_pc {s : State} (hpc : s.pc.toNat + 1 ≤ 4095) : s.preAdvance.pc.toNat = s.pc.toNat + 2 :=
  toNat_add_two (by omega)

theorem inv_exec {s t : State} {i : Instr} (hinv : s.Inv) (hi : s.idle = false) (hd : decode s.fetchWord = .ok i)
    (h : exec i s.preAdvance = .next t) : t.Inv := by
  obtain ⟨hnone, hpc⟩ := idle_eq_false.1 hi
  have hadv := preAdvance_pc hpc
  have hslots : SlotsInRange s.preAdvance := hinv.stackRange
  refine ⟨exec_wf h hinv.memory, exec_pc_le h (by omega) (by omega) hslots, exec_slotsInRange h (by omega) hslots,
    fun r hr => ?_⟩
  obtain ⟨c, hpol, rfl, hc⟩ := exec_raises h hnone hr
  rw [preAdvance_raise] at hr ⊢
  cases hr
  exact recordPrecise_raise hpc hd hpol hc

theorem inv_preAdvance {s : State} (hinv : s.Inv) (hi : s.idle = false) : s.preAdvance.Inv := by
  obtain ⟨hnone, hpc⟩ := idle_eq_false.1 hi
  have hadv := preAdvance_pc hpc
  exact ⟨hinv.memory, by omega, hinv.stackRange, fun r hr => by simp [State.preAdvance, hnone] at hr⟩

theorem inv_step {s t : State} (hinv : s.Inv) (h : step s = .next t) : t.Inv := by
  obtain ⟨_, rfl⟩ | ⟨hi, i, hd, he⟩ | ⟨hi, _, rfl⟩ := step_cases h
  · exact hinv
  · exact inv_exec hinv hi hd he
  · exact inv_preAdvance hinv hi

/-- Settles O11: an idle core keeps its state, an unrecognized word moves `pc` to at most 4096, and an instruction
keeps each field of the invariant. -/
theorem stepKeepsTheInvariant : Obligations.StepKeepsTheInvariant := by
  unfold Obligations.StepKeepsTheInvariant
  exact fun _ _ => inv_step

end Sys2Proof.Machine
end

section
/-! The transactions (`10_state.md` R40): what each can do, once, and what holds of all of them. -/

namespace Sys2Proof.Machine

/-! ### STEP(rnd) -/

theorem transact_step {s t : State} {rnd : Byte} (h : step (s.setRndPort (some rnd)) = .next t) :
    transact (.step rnd) s = .next (t.setRndPort s.rndPort, .done) := by
  simp only [transact, stepRnd, h]

/-! ### LOAD -/

theorem load_of_fits {image : List Byte} (h : image.length ≤ maxImage) (s : State) :
    load (some image) s = (s.loaded image, .success) := if_pos (decide_eq_true h)

theorem load_of_not_fits {image : Option (List Byte)} (h : imageFits image = false) (s : State) :
    load image s = (s, .failure) := by
  rw [load, h]
  rfl

/-- A LOAD succeeds and installs its image, or fails and changes nothing. -/
theorem load_cases (image : Option (List Byte)) (s : State) :
    (∃ bytes, image = some bytes ∧ bytes.length ≤ maxImage ∧ load image s = (s.loaded bytes, .success)) ∨
      load image s = (s, .failure) := by
  cases hf : imageFits image with
  | false => exact .inr (load_of_not_fits hf s)
  | true =>
    cases image with
    | none => cases hf
    | some bytes => exact .inl ⟨bytes, rfl, of_decide_eq_true hf, load_of_fits (of_decide_eq_true hf) s⟩

/-- Settles O54: neither image is accepted. -/
theorem failedLoadChangesNothing : Obligations.FailedLoadChangesNothing := by
  unfold Obligations.FailedLoadChangesNothing
  refine fun s => ⟨rfl, fun image h => ?_⟩
  have hfits : imageFits (some image) = false := decide_eq_false (Nat.not_le.2 h)
  rw [transact, load_of_not_fits hfits]

/-! ### Every transaction -/

theorem transact_next (x : Transaction) (s : State) : ∃ t r, transact x s = .next (t, r) := by
  cases x with
  | step rnd =>
    obtain ⟨t, h⟩ := step_next (s.setRndPort (some rnd))
    exact ⟨_, _, transact_step h⟩
  | _ => exact ⟨_, _, rfl⟩

/-- Settles O9: a fault is a record in a next state, so nothing answers otherwise. -/
theorem everythingAnswersANextState : Obligations.EverythingAnswersANextState := by
  unfold Obligations.EverythingAnswersANextState
  exact ⟨exec_next, step_next, transact_next⟩

/-- What a transaction does: a LOAD that succeeds, a STEP, a SET_KEY, a TICK, or nothing to the state. -/
theorem transact_cases {x : Transaction} {s t : State} {r : Response} (h : transact x s = .next (t, r)) :
    (∃ bytes, bytes.length ≤ maxImage ∧ t = s.loaded bytes ∧ r = .loadResult .success) ∨
    (∃ rnd u, step (s.setRndPort (some rnd)) = .next u ∧ t = u.setRndPort s.rndPort ∧ r = .done) ∨
    (∃ k pressed, x = .setKey k pressed ∧ t = s.setKey k pressed ∧ r = .done) ∨
    (t = tick s ∧ r = .done) ∨
    (t = s ∧ r ≠ .loadResult .success) := by
  cases x with
  | load image =>
    obtain ⟨bytes, -, hfits, hl⟩ | hl := load_cases image s <;> rw [transact, hl] at h <;> cases h
    · exact .inl ⟨bytes, hfits, rfl, rfl⟩
    · exact .inr (.inr (.inr (.inr ⟨rfl, by simp⟩)))
  | step rnd =>
    obtain ⟨u, hu⟩ := step_next (s.setRndPort (some rnd))
    rw [transact_step hu] at h
    cases h
    exact .inr (.inl ⟨rnd, u, hu, rfl, rfl⟩)
  | setKey k pressed => cases h; exact .inr (.inr (.inl ⟨k, pressed, rfl, rfl, rfl⟩))
  | tick => cases h; exact .inr (.inr (.inr (.inl ⟨rfl, rfl⟩)))
  | getVideo | getSoundTimer | soundActive | getStatus | observe =>
    cases h; exact .inr (.inr (.inr (.inr ⟨rfl, by simp⟩)))

/-! ### The invariant -/

/-- The invariant reads six parts of the state. -/
theorem inv_congr {s t : State} (hinv : s.Inv) (hmem : t.mem = s.mem) (hpc : t.pc = s.pc) (hstack : t.stack = s.stack)
    (hfault : t.fault = s.fault) (hcfg : t.cfg = s.cfg) (hsp : t.sp = s.sp) : t.Inv := by
  refine ⟨hmem ▸ hinv.memory, hpc ▸ hinv.pcRange, hstack ▸ hinv.stackRange, fun r hr => ?_⟩
  obtain ⟨policy, address, executed, word, overflow, underflow⟩ := hinv.record r (hfault ▸ hr)
  have hword : t.fetchWord = s.fetchWord := by rw [State.fetchWord, State.fetchWord, hmem, hpc]
  exact ⟨hcfg ▸ policy, hpc ▸ address, hpc ▸ executed, hword ▸ word, hsp ▸ overflow, hsp ▸ underflow⟩

theorem inv_setRndPort {s : State} (hinv : s.Inv) (r : Option Byte) : (s.setRndPort r).Inv :=
  inv_congr hinv rfl rfl rfl rfl rfl rfl

/-- After a LOAD `pc` is 512, the stack is clear and no fault is recorded. -/
theorem inv_loaded (s : State) {image : List Byte} (h : image.length ≤ maxImage) : (s.loaded image).Inv where
  memory := loadedMemory_wf s.cfg h
  pcRange := by change (BitVec.ofNat 16 progBase).toNat ≤ 0x10FE; decide
  stackRange := invariantAtReset.stackRange
  record := fun _ hr => nomatch hr

/-- Settles O12: a LOAD makes the invariant true, a STEP keeps it, and the other transactions write no part that it
reads. -/
theorem transactionsKeepTheInvariant : Obligations.TransactionsKeepTheInvariant := by
  unfold Obligations.TransactionsKeepTheInvariant
  intro x s t r hinv h
  obtain ⟨bytes, hfits, rfl, _⟩ | ⟨rnd, u, hu, rfl, _⟩ | ⟨k, pressed, _, rfl, _⟩ | ⟨rfl, _⟩ | ⟨rfl, _⟩ :=
    transact_cases h
  · exact inv_loaded s hfits
  · exact inv_setRndPort (inv_step (inv_setRndPort hinv _) hu) _
  · exact inv_congr hinv rfl rfl rfl rfl rfl rfl
  · exact inv_congr hinv rfl rfl rfl rfl rfl rfl
  · exact hinv

/-! ### The fault record -/

theorem idle_of_fault {s : State} {r : FaultRecord} (h : s.fault = some r) : s.idle = true := by
  rw [State.idle, h]
  rfl

/-- Settles O50: a STEP of a faulted core does nothing, and no other transaction but a LOAD writes the record. -/
theorem onlyASuccessfulLoadClearsAFault : Obligations.OnlyASuccessfulLoadClearsAFault := by
  unfold Obligations.OnlyASuccessfulLoadClearsAFault
  intro x s t r a hr h
  obtain ⟨bytes, _, rfl, rfl⟩ | ⟨rnd, u, hu, rfl, rfl⟩ | ⟨k, pressed, _, rfl, rfl⟩ | ⟨rfl, rfl⟩ | ⟨rfl, ha⟩ :=
    transact_cases h
  · exact ⟨fun hne => absurd rfl hne, fun _ => rfl⟩
  · rw [step_of_idle (s := s.setRndPort (some rnd)) (idle_of_fault hr)] at hu
    cases hu
    exact ⟨fun _ => hr, fun he => by cases he⟩
  · exact ⟨fun _ => hr, fun he => by cases he⟩
  · exact ⟨fun _ => hr, fun he => by cases he⟩
  · exact ⟨fun _ => hr, fun he => absurd he ha⟩

/-! ### Parts that no instruction changes -/

theorem onlyChanges_setRndPort (s : State) (r : Option Byte) : OnlyChanges [.rndPort] s (s.setRndPort r) := by
  intro p hp
  cases p with
  | rndPort => simp at hp
  | v | mem => exact fun _ => rfl
  | _ => rfl

theorem keys_not_mem_mayChange (i : Instr) : Part.keys ∉ mayChange i := by cases i <;> simp [mayChange]

theorem cfg_not_mem_mayChange (i : Instr) : Part.cfg ∉ mayChange i := by cases i <;> simp [mayChange]

theorem rndPort_not_mem_mayChange (i : Instr) : Part.rndPort ∉ mayChange i := by cases i <;> simp [mayChange]

/-- A part other than `pc` that no instruction changes is changed by no step. -/
theorem step_same {p : Part} (hp : ∀ i, p ∉ mayChange i) (hpc : p ≠ .pc) {s t : State} (h : step s = .next t) :
    Part.Same s t p := by
  have hadv : Part.Same s s.preAdvance p := onlyChanges_setPc s _ p (by simp [hpc])
  obtain ⟨_, rfl⟩ | ⟨_, i, _, he⟩ | ⟨_, _, rfl⟩ := step_cases h
  · exact OnlyChanges.refl [] t p (by simp)
  · exact hadv.trans (exec_onlyChanges he p (hp i))
  · exact hadv

/-- STEP(rnd) keeps the keys and the parameters: the port aside, it is a step. -/
theorem stepRnd_keeps {s u : State} {rnd : Byte} (hu : step (s.setRndPort (some rnd)) = .next u) :
    (u.setRndPort s.rndPort).keys = s.keys ∧ (u.setRndPort s.rndPort).cfg = s.cfg := by
  have hkeys := step_same keys_not_mem_mayChange (by decide) hu
  have hcfg := step_same cfg_not_mem_mayChange (by decide) hu
  exact ⟨hkeys, hcfg⟩

/-! ### The keys -/

theorem onlyChanges_setKey (s : State) (k : Fin 16) (pressed : Bool) : OnlyChanges [.keys] s (s.setKey k pressed) := by
  intro p hp
  cases p with
  | keys => simp at hp
  | v | mem => exact fun _ => rfl
  | _ => rfl

/-- Settles O52: SET_KEY writes one key; no instruction lists the keys among its parts, so no STEP writes them, and
TICK and the read-outs do not either. -/
theorem onlySetKeyAndLoadWriteTheKeys : Obligations.OnlySetKeyAndLoadWriteTheKeys := by
  unfold Obligations.OnlySetKeyAndLoadWriteTheKeys
  refine ⟨fun k pressed s => ⟨s.setKey k pressed, .done, rfl, ?_, fun j hj => ?_, onlyChanges_setKey s k pressed⟩,
    fun i s t h => exec_onlyChanges h .keys (keys_not_mem_mayChange i), fun x s t r hx hr h => ?_⟩
  · rw [getKey_setKey, if_pos rfl]
  · rw [getKey_setKey, if_neg hj]
  · obtain ⟨_, _, _, hs⟩ | ⟨_, _, hu, rfl, _⟩ | ⟨k, pressed, he, _⟩ | ⟨rfl, _⟩ | ⟨rfl, _⟩ := transact_cases h
    · exact absurd hs hr
    · exact (stepRnd_keeps hu).1
    · exact absurd he (hx k pressed)
    · rfl
    · rfl

/-! ### A successful LOAD -/

theorem loaded_memRead (s : State) {image : List Byte} (h : image.length ≤ maxImage) {a : Nat} (ha : a < memSize) :
    (s.loaded image).memRead a =
      if a < 512 then s.cfg.font.toList.getD a 0 else image.getD (a - 512) 0 := by
  rw [State.memRead, Nat.mod_eq_of_lt ha]
  exact read_loadedMemory s.cfg h a

theorem reset_getV (r : Reg) : State.reset.getV r = 0 := Vector.getElem_replicate r.isLt

theorem reset_stack (k : Fin 16) : State.reset.stack[k] = 0 := Vector.getElem_replicate k.isLt

theorem reset_getKey (k : Fin 16) : State.reset.getKey k = false := Vector.getElem_replicate k.isLt

/-- Settles O53: memory reads as it was laid out, and every other part is as at construction. -/
theorem loadInstallsTheProgram : Obligations.LoadInstallsTheProgram := by
  unfold Obligations.LoadInstallsTheProgram
  intro image s h
  have hread {a : Nat} (ha : a < 4096) := loaded_memRead s h ha
  refine ⟨s.loaded image, by rw [transact, load_of_fits h], fun a ha => ?_, fun a hlow hhigh => ?_, fun j hj => ?_,
    reset_getV, rfl, rfl, rfl, reset_stack, rfl, rfl, pixel_clear, reset_getKey, rfl, loadedMemory_wf s.cfg h⟩
  · rw [hread (by omega), if_pos (by omega)]
  · rw [hread (by omega), if_pos hhigh, List.getD_eq_default]
    rw [Vector.length_toList]
    exact hlow
  · rw [hread hj, if_neg (by omega), Nat.add_sub_cancel_left]

/-- Settles O58: every part of the state at construction is its zero. -/
theorem constructionIsAllZero : Obligations.ConstructionIsAllZero := by
  unfold Obligations.ConstructionIsAllZero
  exact ⟨reset_getV, rfl, rfl, rfl, reset_stack, rfl, rfl, pixel_clear, reset_getKey, fun _ => rfl, rfl⟩

end Sys2Proof.Machine
end

section
/-! The read-outs, runs of transactions (`60_exceptions.md` R221, `70_reset_and_hazards.md` R256), the byte of
STEP(rnd) (`40_cycle.md` R95), and the run without a LOAD. -/

namespace Sys2Proof.Machine

/-! ### The read-outs -/

theorem getStatus_faulted_iff {s : State} {f : FaultRecord} : getStatus s = .faulted f ↔ s.fault = some f := by
  unfold getStatus
  split
  · next r hr => rw [hr, Status.faulted.injEq, Option.some.injEq]
  · next hr => split <;> simp [hr]

theorem getStatus_halted_iff {s : State} : getStatus s = .halted ↔ s.fault = none ∧ s.pc.toNat + 1 > 4095 := by
  unfold getStatus
  split
  · next r hr => simp [hr]
  · next hr => simp [hr, State.halted]

theorem getStatus_running_iff {s : State} : getStatus s = .running ↔ s.Running := by
  unfold getStatus State.Running
  split
  · next r hr => simp [hr]
  · next hr => simp [hr, State.halted]

/-- Settles O56: each read-out answers with the state itself beside what it names. -/
theorem readOutsReturnTheStateAndChangeNothing : Obligations.ReadOutsReturnTheStateAndChangeNothing := by
  unfold Obligations.ReadOutsReturnTheStateAndChangeNothing
  exact fun s => ⟨rfl, ⟨_, rfl, decide_eq_true_iff⟩, rfl, rfl,
    ⟨_, rfl, fun _ => getStatus_faulted_iff, getStatus_halted_iff, getStatus_running_iff⟩⟩

/-! ### Transactions in a row -/

theorem transactAll_cons {x : Transaction} {s t : State} {r : Response} (h : transact x s = .next (t, r))
    (xs : List Transaction) : transactAll (x :: xs) s = transactAll xs t := by
  rw [transactAll, h]

theorem transactAll_append {xs : List Transaction} (ys : List Transaction) : ∀ {s t : State},
    transactAll xs s = .next t → transactAll (xs ++ ys) s = transactAll ys t := by
  induction xs with
  | nil => rintro s t ⟨⟩; rfl
  | cons x xs ih =>
    intro s t h
    obtain ⟨u, r, hu⟩ := transact_next x s
    rw [transactAll_cons hu] at h
    rw [List.cons_append, transactAll_cons hu]
    exact ih h

/-! ### TICK -/

theorem toNat_countDown (b : Byte) : (countDown b).toNat = b.toNat - 1 := by
  rw [countDown]
  split
  · next h => rw [h]; rfl
  · next h => bv_omega

theorem onlyChanges_tick (s : State) : OnlyChanges [.dt, .st] s (tick s) :=
  ((onlyChanges_setDT s _).mono (by simp)).trans ((onlyChanges_setST _ _).mono (by simp))

/-- Settles O51: each TICK takes one off each timer, down to 0. -/
theorem ticksCountDownToZero : Obligations.TicksCountDownToZero := by
  unfold Obligations.TicksCountDownToZero
  intro k
  induction k with
  | zero => exact fun s => ⟨s, rfl, rfl, rfl, .refl _ s⟩
  | succ k ih =>
    intro s
    obtain ⟨t, ht, hdt, hst, honly⟩ := ih (tick s)
    have hd : (tick s).dt.toNat = s.dt.toNat - 1 := toNat_countDown s.dt
    have hs : (tick s).st.toNat = s.st.toNat - 1 := toNat_countDown s.st
    exact ⟨t, ht, by omega, by omega, (onlyChanges_tick s).trans honly⟩

/-! ### A frame of the host -/

/-- The SET_KEYs of a list of keys write those keys and change nothing else. -/
theorem transactAll_setKeys (keys : Vector Bool 16) (ks : List (Fin 16)) : ∀ s : State,
    ∃ now : Vector Bool 16, transactAll (ks.map fun k => .setKey k keys[k]) s = .next { s with keys := now } ∧
      ∀ j : Fin 16, now[j] = if j ∈ ks then keys[j] else s.keys[j] := by
  induction ks with
  | nil => exact fun s => ⟨s.keys, rfl, fun j => by simp⟩
  | cons k ks ih =>
    intro s
    obtain ⟨now, hnow, hkeys⟩ := ih (s.setKey k keys[k])
    refine ⟨now, hnow, fun j => ?_⟩
    have hset : (s.setKey k keys[k]).keys[j] = if j = k then keys[k] else s.keys[j] := getKey_setKey s k j _
    rw [hkeys, hset]
    by_cases hjk : j = k
    · subst hjk; simp
    · simp [hjk]

theorem transactAll_setAllKeys (keys : Vector Bool 16) (s : State) :
    transactAll ((List.finRange 16).map fun k => .setKey k keys[k]) s = .next { s with keys := keys } := by
  obtain ⟨now, hnow, hkeys⟩ := transactAll_setKeys keys (List.finRange 16) s
  have : now = keys := Vector.ext fun j hj => (hkeys ⟨j, hj⟩).trans (if_pos (List.mem_finRange _))
  rw [hnow, this]

theorem transactAll_steps (rnds : List Byte) : ∀ s : State,
    ∃ t, transactAll (rnds.map .step) s = .next t ∧ t.keys = s.keys ∧ t.cfg = s.cfg := by
  induction rnds with
  | nil => exact fun s => ⟨s, rfl, rfl, rfl⟩
  | cons rnd rnds ih =>
    intro s
    obtain ⟨u, hu⟩ := step_next (s.setRndPort (some rnd))
    obtain ⟨hkeys, hcfg⟩ := stepRnd_keeps hu
    obtain ⟨t, ht, htkeys, htcfg⟩ := ih (u.setRndPort s.rndPort)
    exact ⟨t, (transactAll_cons (transact_step hu) _).trans ht, htkeys.trans hkeys, htcfg.trans hcfg⟩

/-- Settles O57: the SET_KEYs leave the frame's keys, and neither the TICK, the STEPs nor the read-outs write them. -/
theorem frameSetsTheKeysForAllItsSteps : Obligations.FrameSetsTheKeysForAllItsSteps := by
  unfold Obligations.FrameSetsTheKeysForAllItsSteps
  intro keys rnds s
  have hset := transactAll_setAllKeys keys s
  obtain ⟨u, hu, hkeys, hcfg⟩ := transactAll_steps rnds (tick { s with keys := keys })
  refine ⟨_, u, hset, rfl, ?_, hkeys, hcfg⟩
  rw [hostFrame, List.append_assoc, List.append_assoc, transactAll_append _ hset, List.singleton_append,
    transactAll_cons (x := .tick) rfl, transactAll_append _ hu]
  rfl

/-! ### The byte of STEP(rnd) -/

/-- An instruction does the same when the byte it would draw is given on the port. -/
theorem exec_setRndPort_rndByte {i : Instr} {s t : State} (h : exec i s = .next t) :
    exec i (s.setRndPort (some s.rndByte)) = .next (t.setRndPort (some s.rndByte)) := by
  by_cases hi : ∃ x kk, i = .rnd x kk
  · obtain ⟨x, kk, rfl⟩ := hi
    cases h
    rfl
  · exact exec_setRndPort (by simpa using hi) h _

theorem step_setRndPort_rndByte {s t : State} (h : step s = .next t) :
    step (s.setRndPort (some s.rndByte)) = .next (t.setRndPort (some s.rndByte)) := by
  obtain ⟨hi, rfl⟩ | ⟨hi, i, hd, he⟩ | ⟨hi, ⟨e, hd⟩, rfl⟩ := step_cases h
  · exact step_of_idle (s := t.setRndPort _) hi
  · exact (step_of_decode (s := s.setRndPort (some s.rndByte)) hi hd).trans (exec_setRndPort_rndByte he)
  · exact step_of_unrecognized (s := s.setRndPort _) hi hd

/-- Settles O55: the byte that makes STEP(rnd) the step is the one the step would draw. -/
theorem stepIsStepWithSomeRandomByte : Obligations.StepIsStepWithSomeRandomByte := by
  unfold Obligations.StepIsStepWithSomeRandomByte
  intro s t _ h
  have hport : t.rndPort = s.rndPort := step_same rndPort_not_mem_mayChange (by decide) h
  refine ⟨s.rndByte, ?_⟩
  rw [transact_step (step_setRndPort_rndByte h), ← hport]
  rfl

/-- Settles O60: STEP(rnd) is by definition the step with the byte on the port, and RND in it draws that byte. -/
theorem stepTransactionUsesTheGivenByte : Obligations.StepTransactionUsesTheGivenByte := by
  unfold Obligations.StepTransactionUsesTheGivenByte
  refine ⟨fun s t rnd h => transact_step h, fun x kk rnd s hrun hd => ?_⟩
  have hstep : step (s.setRndPort (some rnd)) = exec (.rnd x kk) (s.setRndPort (some rnd)).preAdvance :=
    step_of_decode (s := s.setRndPort (some rnd)) (idle_eq_false.2 hrun) hd
  obtain ⟨hregs, honly⟩ := draw_frame s.preAdvance x (rnd &&& kk)
  refine ⟨(s.preAdvance.setV x (rnd &&& kk)).countDraw, transact_step hstep, fun k => ?_, rfl, hregs,
    ((onlyChanges_setPc s _).mono (by simp)).trans (honly.mono (by simp))⟩
  rw [countDraw_getV, getV_setV_self, BitVec.getLsbD_and]

/-! ### A run without a LOAD -/

/-- The construction state after `n` no-ops. -/
def State.resetAt (n : Nat) : State := { State.reset with pc := BitVec.ofNat 16 (2 * n) }

theorem preAdvance_resetAt (n : Nat) : (State.resetAt n).preAdvance = State.resetAt (n + 1) := by
  have hpc : BitVec.ofNat 16 (2 * n) + 2 = BitVec.ofNat 16 (2 * (n + 1)) := (BitVec.ofNat_add (2 * n) 2).symm
  exact congrArg State.reset.setPc hpc

/-- Memory is zero, so each step is a no-op; at 4096 the core is halted. -/
theorem step_resetAt {n : Nat} (hn : n ≤ 2048) : step (State.resetAt n) = .next (State.resetAt (min (n + 1) 2048)) := by
  have hpc : (State.resetAt n).pc.toNat = 2 * n := by
    rw [State.resetAt, BitVec.toNat_ofNat]; omega
  rcases Nat.lt_or_ge n 2048 with hlt | hge
  · have hi : (State.resetAt n).idle = false := idle_eq_false.2 ⟨rfl, by omega⟩
    have hw : (State.resetAt n).fetchWord = wordOfBytes 0 0 := rfl
    have hd : decode (State.resetAt n).fetchWord = .error .class0 := hw ▸ rfl
    rw [step_of_unrecognized hi hd, preAdvance_resetAt, Nat.min_eq_left hlt]
  · have hi : (State.resetAt n).idle = true := idle_iff_quiescent.2 (.inl (by omega))
    obtain rfl : n = 2048 := by omega
    exact step_of_idle hi

theorem run_succ {M : Host.Core} {s t : M.State} (h : M.step s = .next t) (k : Nat) : M.run (k + 1) s = M.run k t := by
  rw [Host.Core.run, h]

theorem run_resetAt (k : Nat) : ∀ {n : Nat}, n ≤ 2048 →
    core.run k (State.resetAt n) = .next (State.resetAt (min (n + k) 2048)) := by
  induction k with
  | zero =>
    intro n hn
    rw [Nat.add_zero, Nat.min_eq_left hn]
    rfl
  | succ k ih =>
    intro n hn
    have hstep : core.step (State.resetAt n) = .next (State.resetAt (min (n + 1) 2048)) := step_resetAt hn
    have hmin : min (min (n + 1) 2048 + k) 2048 = min (n + (k + 1)) 2048 := by omega
    exact (run_succ hstep k).trans (hmin ▸ ih (Nat.min_le_right _ _))

/-- Settles O59: `k` steps reach `2 k`, or 4096 if that is less, from where no step moves. -/
theorem unloadedCoreRunsZeroMemoryThenHalts : Obligations.UnloadedCoreRunsZeroMemoryThenHalts := by
  unfold Obligations.UnloadedCoreRunsZeroMemoryThenHalts
  refine ⟨fun k hk => ?_, fun k => ?_⟩
  · have h := run_resetAt k (Nat.zero_le 2048)
    rw [Nat.zero_add, Nat.min_eq_left hk] at h
    exact h
  · have h := run_resetAt (2048 + k) (Nat.zero_le 2048)
    rw [Nat.min_eq_right (by omega)] at h
    exact h

end Sys2Proof.Machine
end
